-- ==== Sys2Proof/Word.lean ====
section
/-! DEFINITION. The words of the host port, the entropy port and the command encoding (00_scope.md R5). -/

namespace Sys2Proof

/-- A word is 32 bits; bit 0 is the least significant (00_scope.md R5). -/
abbrev Word := BitVec 32

/-- A word index of the host port, 16 bits (20_memory.md R40). -/
abbrev Index := BitVec 16

end Sys2Proof
end

