-- ==== Sys2Proof/Syntax.lean ====
section
/-! DEFINITION. The commands of the MAU, one constructor for each row of spec/opcode_table.json, and the syntax around
them: opcodes, formats, the fields of a command word (30_encoding.md R61, R62, R65). -/

namespace Sys2Proof

/-- An operand register `x0` to `x7` (10_state.md R21). A specifier 8 to 15 names none (30_encoding.md R63), so it has no
value here: the decoder refuses it. -/
abbrev Reg := Fin 8

/-- The eight commands with their decoded operands (30_encoding.md R65, R71). -/
inductive Instr where
  /-- `modred xd, xa, xm` (40_modmul.md R80). -/
  | modred (rd ra rm : Reg)
  /-- `modmul xd, xa, xb, xm` (40_modmul.md R81). -/
  | modmul (rd ra rb rm : Reg)
  /-- `modexp xd, xa, xb, xm` (41_modexp.md R91). -/
  | modexp (rd ra rb rm : Reg)
  /-- `modinv xd, xa, xm` (42_modinv.md R101). -/
  | modinv (rd ra rm : Reg)
  /-- `primetest xa` (43_primetest.md R111). -/
  | primetest (ra : Reg)
  /-- `generate bits` (44_rsa_engine.md R120). -/
  | generate (bits : BitVec 16)
  /-- `encrypt xd, imm8` (44_rsa_engine.md R121). -/
  | encrypt (rd : Reg) (imm8 : BitVec 8)
  /-- `decrypt xd, xa` (44_rsa_engine.md R122). -/
  | decrypt (rd ra : Reg)
  deriving DecidableEq, Repr

/-- The mnemonics of the opcode table (30_encoding.md R65). -/
inductive Opcode where
  | modred | modmul | modexp | modinv | primetest | generate | encrypt | decrypt
  deriving DecidableEq, Repr

/-- The formats of 30_encoding.md R62. -/
inductive Format where
  | M4 | M3 | M2 | M1 | I | G
  deriving DecidableEq, Repr

/-- The fields of a command word (30_encoding.md R61); `bits16` overlays `rb`, `rm` and `imm8`. -/
structure Fields where
  op : BitVec 8
  rd : BitVec 4
  ra : BitVec 4
  rb : BitVec 4
  rm : BitVec 4
  imm8 : BitVec 8
  deriving DecidableEq, Repr

/-- What a command word stands for: a command, or `Illegal` (30_encoding.md R71). -/
inductive Decoded where
  | command (i : Instr)
  | illegal
  deriving DecidableEq, Repr

/-- The row of the opcode table a command belongs to. -/
def Instr.opcode : Instr → Opcode
  | .modred _ _ _ => .modred
  | .modmul _ _ _ _ => .modmul
  | .modexp _ _ _ _ => .modexp
  | .modinv _ _ _ => .modinv
  | .primetest _ => .primetest
  | .generate _ => .generate
  | .encrypt _ _ => .encrypt
  | .decrypt _ _ => .decrypt

end Sys2Proof
end

