-- ==== Sys2Proof/WellFormed.lean ====
section
/-! DEFINITION. When the fields of a command word are well formed: the opcode is one of the table's, every specifier its
format uses names a register, and every field its format does not use is zero (30_encoding.md R62, R63, R65, R66). This is
the judgement by format; the decoder (Decode.lean) follows the case text of R71, and an obligation says the two agree. The
operands of an `Instr` are typed so that every `Instr` has well-formed fields. -/

namespace Sys2Proof

/-- The `op` column of 30_encoding.md R65. -/
def Opcode.byte : Opcode → BitVec 8
  | .modred => 0x01
  | .modmul => 0x02
  | .modexp => 0x03
  | .modinv => 0x04
  | .primetest => 0x05
  | .generate => 0x10
  | .encrypt => 0x11
  | .decrypt => 0x12

/-- The `format` column of 30_encoding.md R65. -/
def Opcode.format : Opcode → Format
  | .modred => .M3
  | .modmul => .M4
  | .modexp => .M4
  | .modinv => .M3
  | .primetest => .M1
  | .generate => .G
  | .encrypt => .I
  | .decrypt => .M2

/-- The eight rows of the table. -/
def Opcode.all : List Opcode :=
  [.modred, .modmul, .modexp, .modinv, .primetest, .generate, .encrypt, .decrypt]

/-- The row whose `op` byte is `b`; none for a reserved opcode (30_encoding.md R65). -/
def Opcode.ofByte (b : BitVec 8) : Option Opcode := Opcode.all.find? (fun o => o.byte == b)

/-- A specifier names a register: bit 3 is zero (30_encoding.md R63). -/
def Fields.namesReg (f : BitVec 4) : Bool := f.toNat < 8

/-- The fields fit a format: the table of 30_encoding.md R62 with R63 and R66. -/
def Fields.fits (f : Fields) : Format → Bool
  | .M4 => namesReg f.rd && namesReg f.ra && namesReg f.rb && namesReg f.rm && f.imm8 == 0
  | .M3 => namesReg f.rd && namesReg f.ra && f.rb == 0 && namesReg f.rm && f.imm8 == 0
  | .M2 => namesReg f.rd && namesReg f.ra && f.rb == 0 && f.rm == 0 && f.imm8 == 0
  | .M1 => f.rd == 0 && namesReg f.ra && f.rb == 0 && f.rm == 0 && f.imm8 == 0
  | .I => namesReg f.rd && f.ra == 0 && f.rb == 0 && f.rm == 0
  | .G => f.rd == 0 && f.ra == 0

/-- Well-formed fields: a known opcode, and the fields fit its format. -/
def Fields.wellFormed (f : Fields) : Bool :=
  match Opcode.ofByte f.op with
  | some o => f.fits o.format
  | none => false

end Sys2Proof
end

