-- ==== Sys2Proof/Decode.lean ====
section
/-! DEFINITION. Decoding a command word (30_encoding.md R71), the encoder (R62, R65), the match and mask columns of R65, and
the assembler's text (R69). Every function is total: any 32-bit word is a command or `illegal`. -/

namespace Sys2Proof

/-- The fields of the command word (30_encoding.md R61). -/
def fieldsOf (cw : Word) : Fields where
  op := cw.extractLsb' 24 8
  rd := cw.extractLsb' 20 4
  ra := cw.extractLsb' 16 4
  rb := cw.extractLsb' 12 4
  rm := cw.extractLsb' 8 4
  imm8 := cw.extractLsb' 0 8

/-- `reg(f)` of 30_encoding.md R71: `f <= 7`. -/
def isReg (f : BitVec 4) : Bool := f.toNat ≤ 7

/-- The register a specifier 0 to 7 names (30_encoding.md R63). -/
def regOf (f : BitVec 4) : Reg := Fin.ofNat 8 f.toNat

/-- `Decode(cw)` of 30_encoding.md R71. -/
def decode (cw : Word) : Decoded :=
  let f := fieldsOf cw
  if f.op = 0x01 then
    if isReg f.rd ∧ isReg f.ra ∧ f.rb = 0 ∧ isReg f.rm ∧ f.imm8 = 0
    then .command (.modred (regOf f.rd) (regOf f.ra) (regOf f.rm)) else .illegal
  else if f.op = 0x02 then
    if isReg f.rd ∧ isReg f.ra ∧ isReg f.rb ∧ isReg f.rm ∧ f.imm8 = 0
    then .command (.modmul (regOf f.rd) (regOf f.ra) (regOf f.rb) (regOf f.rm)) else .illegal
  else if f.op = 0x03 then
    if isReg f.rd ∧ isReg f.ra ∧ isReg f.rb ∧ isReg f.rm ∧ f.imm8 = 0
    then .command (.modexp (regOf f.rd) (regOf f.ra) (regOf f.rb) (regOf f.rm)) else .illegal
  else if f.op = 0x04 then
    if isReg f.rd ∧ isReg f.ra ∧ f.rb = 0 ∧ isReg f.rm ∧ f.imm8 = 0
    then .command (.modinv (regOf f.rd) (regOf f.ra) (regOf f.rm)) else .illegal
  else if f.op = 0x05 then
    if f.rd = 0 ∧ isReg f.ra ∧ f.rb = 0 ∧ f.rm = 0 ∧ f.imm8 = 0
    then .command (.primetest (regOf f.ra)) else .illegal
  else if f.op = 0x10 then
    if f.rd = 0 ∧ f.ra = 0
    then .command (.generate (cw.extractLsb' 0 16)) else .illegal
  else if f.op = 0x11 then
    if isReg f.rd ∧ f.ra = 0 ∧ f.rb = 0 ∧ f.rm = 0
    then .command (.encrypt (regOf f.rd) f.imm8) else .illegal
  else if f.op = 0x12 then
    if isReg f.rd ∧ isReg f.ra ∧ f.rb = 0 ∧ f.rm = 0 ∧ f.imm8 = 0
    then .command (.decrypt (regOf f.rd) (regOf f.ra)) else .illegal
  else .illegal

/-- The command word with these fields, most significant first (30_encoding.md R61). -/
def Fields.word (f : Fields) : Word := f.op ++ f.rd ++ f.ra ++ f.rb ++ f.rm ++ f.imm8

/-- The specifier that names a register: bit 3 zero (30_encoding.md R63). -/
def specOf (r : Reg) : BitVec 4 := BitVec.ofNat 4 r.val

/-- The fields a command is encoded with (30_encoding.md R62): a field its format does not use is zero. -/
def Instr.fields : Instr → Fields
  | .modred rd ra rm => ⟨0x01, specOf rd, specOf ra, 0, specOf rm, 0⟩
  | .modmul rd ra rb rm => ⟨0x02, specOf rd, specOf ra, specOf rb, specOf rm, 0⟩
  | .modexp rd ra rb rm => ⟨0x03, specOf rd, specOf ra, specOf rb, specOf rm, 0⟩
  | .modinv rd ra rm => ⟨0x04, specOf rd, specOf ra, 0, specOf rm, 0⟩
  | .primetest ra => ⟨0x05, 0, specOf ra, 0, 0, 0⟩
  | .generate bits => ⟨0x10, 0, 0, bits.extractLsb' 12 4, bits.extractLsb' 8 4, bits.extractLsb' 0 8⟩
  | .encrypt rd imm8 => ⟨0x11, specOf rd, 0, 0, 0, imm8⟩
  | .decrypt rd ra => ⟨0x12, specOf rd, specOf ra, 0, 0, 0⟩

/-- The word of a command (30_encoding.md R62, R65). -/
def encode (i : Instr) : Word := i.fields.word

/-- The "Encoding" line of a command's rule: its word has the opcode byte `op`, and its fields fit format `f`
(30_encoding.md R62, R65). -/
def Instr.EncodedAs (i : Instr) (op : BitVec 8) (f : Format) : Prop :=
  (fieldsOf (encode i)).op = op ∧ (fieldsOf (encode i)).fits f = true

/-- The `match` column of 30_encoding.md R65. -/
def Opcode.matchBits : Opcode → Word
  | .modred => 0x01000000
  | .modmul => 0x02000000
  | .modexp => 0x03000000
  | .modinv => 0x04000000
  | .primetest => 0x05000000
  | .generate => 0x10000000
  | .encrypt => 0x11000000
  | .decrypt => 0x12000000

/-- The `mask` column of 30_encoding.md R65. -/
def Opcode.maskBits : Opcode → Word
  | .modred => 0xFF88F8FF
  | .modmul => 0xFF8888FF
  | .modexp => 0xFF8888FF
  | .modinv => 0xFF88F8FF
  | .primetest => 0xFFF8FFFF
  | .generate => 0xFFFF0000
  | .encrypt => 0xFF8FFF00
  | .decrypt => 0xFF88FFFF

/-- The instruction the decoder reads from the low `nbits` bits of `w`. A command is one 32-bit word carried by the host's
write (30_encoding.md R60, 20_memory.md R53), a number and not bytes (20_memory.md R46), so no byte order enters; a number
of more than 32 bits is no command word. Log entry 8. -/
def decodeTableWord (nbits w : Nat) : Option Instr :=
  if w % 2 ^ nbits < 2 ^ 32 then
    match decode (BitVec.ofNat 32 (w % 2 ^ nbits)) with
    | .command i => some i
    | .illegal => none
  else none

/-- A register in assembler text (30_encoding.md R69). -/
def regText (r : Reg) : String := "x" ++ toString r.val

/-- A command in assembler text: destination first, modulus last, immediates in decimal (30_encoding.md R69). -/
def Instr.text : Instr → String
  | .modred rd ra rm => "modred " ++ regText rd ++ ", " ++ regText ra ++ ", " ++ regText rm
  | .modmul rd ra rb rm => "modmul " ++ regText rd ++ ", " ++ regText ra ++ ", " ++ regText rb ++ ", " ++ regText rm
  | .modexp rd ra rb rm => "modexp " ++ regText rd ++ ", " ++ regText ra ++ ", " ++ regText rb ++ ", " ++ regText rm
  | .modinv rd ra rm => "modinv " ++ regText rd ++ ", " ++ regText ra ++ ", " ++ regText rm
  | .primetest ra => "primetest " ++ regText ra
  | .generate bits => "generate " ++ toString bits.toNat
  | .encrypt rd imm8 => "encrypt " ++ regText rd ++ ", " ++ toString imm8.toNat
  | .decrypt rd ra => "decrypt " ++ regText rd ++ ", " ++ regText ra

end Sys2Proof
end

