-- ==== Sys2Proof/Config.lean ====
section
/-! DEFINITION. What an implementation fixes (the named parameters of 00_scope.md R4) and the free values (the draws of
00_scope.md R8). -/

namespace Sys2Proof

/-- The named parameters of 00_scope.md R4. They are "fixed for the life of the hardware, arguments of the model"
(10_state.md R35): a state carries them, no step changes them, and every statement ranges over them. Log entry 1. -/
structure Config where
  /-- `W`: width in bits of every big-integer register. -/
  W : Nat
  /-- `MR_ROUNDS`: Miller-Rabin rounds per tested number. -/
  mrRounds : Nat
  /-- `TRY_LIMIT`: the most prime candidates one GENERATE may test. -/
  tryLimit : Nat
  /-- `BASE`: the byte address at which the platform places host-port index 0. -/
  base : Nat
  deriving DecidableEq, Repr

/-- `L = W / 32`, the limbs of a big-integer register (00_scope.md R4). -/
def Config.limbs (c : Config) : Nat := c.W / 32

/-- The constraints of the table of 00_scope.md R4. -/
abbrev Config.Valid (c : Config) : Prop :=
  (c.W % 32 = 0 ∧ 64 ≤ c.W ∧ c.W ≤ 32768) ∧
  (1 ≤ c.mrRounds ∧ c.mrRounds ≤ 255) ∧
  (2 ≤ c.tryLimit ∧ c.tryLimit ≤ 2 ^ 32 - 1) ∧
  c.base % 4 = 0

/-- The suggested values of 00_scope.md R4; the spec suggests none for `BASE`, and 0 is a DESIGN CHOICE (log entry 1).
Unsafe only for a claim that names these numbers: statements range over every configuration. -/
def Config.suggested : Config := { W := 4096, mrRounds := 40, tryLimit := 65536, base := 0 }

/-- The word of draw number `n` where the entropy port's script gives none: a free value, "any word: no rule constrains
it" (00_scope.md R8, 20_memory.md R54 (a) and (b)). Log entry 2. Safe. -/
opaque Config.entropyWord : Nat → Word

end Sys2Proof
end

