-- ==== Sys2Proof/Machine/State.lean ====
section
/-! DEFINITION. The state of the MAU (10_state.md R20 to R37), the two ports' other sides as plain data (20_memory.md R40),
the error kinds (60_exceptions.md R130), the ways a step can stop, and reset (10_state.md R36). -/

namespace Sys2Proof.Machine

open Sys2Proof

/-- `STATE` (10_state.md R23): encoded 0 and 1 in STATUS.KEYGEN. -/
inductive EngineState where
  | uninitialized
  | keyGenerated
  deriving DecidableEq, Repr

/-- The error kinds in the order of their codes 1 to 9 (60_exceptions.md R130). -/
inductive ErrorKind where
  | primeGenerationFailure
  | noModularInverse
  | messageByteTooLarge
  | decryptedValueOutOfRange
  /-- Never raised by the MAU; the host raises it (60_exceptions.md R130). -/
  | invalidUtf8Output
  | malformedSizeInput
  | zeroModulus
  | invalidState
  | illegalCommand
  deriving DecidableEq, Repr

/-- The whole architectural state of one MAU (10_state.md R20). Registers of `W` bits are naturals (00_scope.md R6). -/
structure Arch where
  /-- `x0..x7` (10_state.md R21). -/
  x : Vector Nat 8
  /-- `N`, the modulus (10_state.md R22). -/
  keyN : Nat
  /-- `E`, the public exponent (10_state.md R22). -/
  keyE : Nat
  /-- `D`, the private exponent (10_state.md R22). -/
  keyD : Nat
  /-- `STATE` (10_state.md R23). -/
  engine : EngineState
  /-- `PRIME` (10_state.md R25). -/
  primeFlag : Bool
  /-- `CMD`, the last command word (10_state.md R28). -/
  cmd : Word
  /-- `ERR`, the error code of the last command (10_state.md R30). -/
  err : BitVec 8
  /-- `ERRLOG`, the codes raised since reset (10_state.md R31). -/
  errlog : Word
  deriving DecidableEq, Repr

/-- The entropy port's side (00_scope.md R8, 20_memory.md R54): the words it delivers next, in order, and how many it has
delivered. Past the script a draw is the free value `Config.entropyWord` of the count. Log entry 2. -/
structure Entropy where
  script : List Word
  taken : Nat
  deriving DecidableEq, Repr

/-- What the host side can do to the MAU (20_memory.md R41, 70_reset_and_hazards.md R150). -/
inductive HostEvent where
  /-- `HostRead(idx)`. -/
  | read (idx : Index)
  /-- `HostWrite(idx, v)`. -/
  | write (idx : Index) (v : Word)
  /-- The reset input, asserted between transactions (70_reset_and_hazards.md R150). -/
  | reset
  /-- The reset input asserted while the write of `v` to `idx` is in progress: outside the spec (00_scope.md R11). -/
  | resetInside (idx : Index) (v : Word)
  deriving DecidableEq, Repr

/-- The state of the model: the MAU's architectural state, the parameters, and the inputs and outputs of its ports. -/
structure State extends Arch where
  /-- The parameters (00_scope.md R4, 10_state.md R35); no step writes them. Log entry 1. -/
  cfg : Config
  /-- The entropy port (20_memory.md R54). Log entry 2. -/
  entropy : Entropy
  /-- The host's events not yet taken, in the order issued (20_memory.md R51 (a)). Log entry 3. -/
  pending : List HostEvent
  /-- The words the host's reads returned so far, newest first (00_scope.md R11). Log entry 3. -/
  replies : List Word
  deriving DecidableEq, Repr

/-- The ways a step can end in a fault: none. A failing command stores a code and the MAU carries on
(60_exceptions.md R131, R135), and a host access never raises an error (R141). -/
inductive Fault : Type
  deriving DecidableEq, Repr

/-- The ways a step can be refused. -/
inductive Refusal where
  /-- Raised by an arm of `exec` without a meaning; no arm is left so. Safe. -/
  | notModelled (mnemonic : String)
  /-- Raised by a step on a reset asserted inside a transaction, which "is outside this spec" (70_reset_and_hazards.md R150,
  00_scope.md R11). Safe. Log entry 4. -/
  | resetInsideTransaction
  deriving DecidableEq, Repr

/-- The architectural state after reset (10_state.md R36). -/
def Arch.reset : Arch where
  x := Vector.replicate 8 0
  keyN := 0
  keyE := 0
  keyD := 0
  engine := .uninitialized
  primeFlag := false
  cmd := 0
  err := 0
  errlog := 0

/-- The machine right after power-up of hardware with parameters `c`: every register as 10_state.md R36 says, nothing yet
issued by the host or drawn (log entries 2 and 3). -/
def State.resetOf (c : Config) : State where
  toArch := Arch.reset
  cfg := c
  entropy := { script := [], taken := 0 }
  pending := []
  replies := []

/-- The machine right after reset, at the suggested parameters of 00_scope.md R4 (log entry 1). -/
def State.reset : State := State.resetOf Config.suggested

end Sys2Proof.Machine
end

