-- ==== Sys2Proof/Machine/Ops.lean ====
section
/-! DEFINITION. The operations the commands share: reading and writing registers (00_scope.md R7), draws (R8), and ending a
command (60_exceptions.md R131). A failing command is the MAU's "trap entry": `State.raiseError`. There is no return from it
(60_exceptions.md R135). The MAU has no memory (20_memory.md R55). -/

namespace Sys2Proof.Machine

open Sys2Proof

/-- `x[i]` (00_scope.md R7). -/
def State.readX (s : State) (r : Reg) : Nat := s.x[r]

/-- `x[i] <- v` (00_scope.md R7); the rules that write show `v < 2^W` (log entry 7). -/
def State.writeX (s : State) (r : Reg) (v : Nat) : State := { s with x := s.x.set r v }

/-- `CMD <- v` (60_exceptions.md R131 step 1). -/
def State.setCmd (s : State) (v : Word) : State := { s with cmd := v }

/-- The flag PRIME and what is left of the entropy port after the test (43_primetest.md R111). -/
def State.setPrime (s : State) (v : Bool) (ent : Entropy) : State := { s with primeFlag := v, entropy := ent }

/-- `N <- n; E <- e; D <- d; STATE <- KeyGenerated`, all four in one step (44_rsa_engine.md R120). -/
def State.setKey (s : State) (n e d : Nat) (ent : Entropy) : State :=
  { s with keyN := n, keyE := e, keyD := d, engine := .keyGenerated, entropy := ent }

/-- The entropy port after a command's draws (20_memory.md R54 (c)). -/
def State.setEntropy (s : State) (ent : Entropy) : State := { s with entropy := ent }

/-- The host's events left after one is taken (20_memory.md R51 (a)). -/
def State.setPending (s : State) (evs : List HostEvent) : State := { s with pending := evs }

/-- A read transaction hands its word to the host (20_memory.md R41). -/
def State.pushReply (s : State) (w : Word) : State := { s with replies := w :: s.replies }

/-- The reset input between transactions (70_reset_and_hazards.md R150): every piece of state takes its reset value; the
parameters are the hardware's, and no draw is consumed. -/
def State.resetMau (s : State) : State := { s with toArch := Arch.reset }

/-- `Draw32()` (00_scope.md R8): the next word of the script, or past its end a free value. The port always answers
(20_memory.md R54 (b)). -/
def Entropy.draw (e : Entropy) : Word × Entropy :=
  match e.script with
  | w :: ws => (w, { script := ws, taken := e.taken + 1 })
  | [] => (Config.entropyWord e.taken, { script := [], taken := e.taken + 1 })

/-- `d[0] + d[1]*2^32 + ...` for `j` draws in order, the first the least significant (00_scope.md R8). -/
def drawLimbs : Nat → Entropy → Nat × Entropy
  | 0, e => (0, e)
  | j + 1, e =>
    let d := e.draw
    let rest := drawLimbs j d.2
    (d.1.toNat + 2 ^ 32 * rest.1, rest.2)

/-- `DrawBits(k)` (00_scope.md R8). -/
def drawBits (k : Nat) (e : Entropy) : Nat × Entropy :=
  let r := drawLimbs ((k + 31) / 32) e
  (r.1 % 2 ^ k, r.2)

/-- `len(v)`, the bit length (00_scope.md R6). -/
def bitLen (v : Nat) : Nat := if v = 0 then 0 else v.log2 + 1

/-- The code of an error kind (60_exceptions.md R130). -/
def ErrorKind.code : ErrorKind → Nat
  | .primeGenerationFailure => 1
  | .noModularInverse => 2
  | .messageByteTooLarge => 3
  | .decryptedValueOutOfRange => 4
  | .invalidUtf8Output => 5
  | .malformedSizeInput => 6
  | .zeroModulus => 7
  | .invalidState => 8
  | .illegalCommand => 9

/-- The word with the one bit of a code set. -/
def ErrorKind.bit (k : ErrorKind) : Word := 1#32 <<< k.code

/-- FAIL(code) of 60_exceptions.md R131: `ERR <- code`, and bit `code` of ERRLOG is set. -/
def State.raiseError (s : State) (k : ErrorKind) : State :=
  { s with err := BitVec.ofNat 8 k.code, errlog := s.errlog ||| k.bit }

/-- Step 4 of 60_exceptions.md R131: `ERR <- 0`. -/
def State.succeed (s : State) : State := { s with err := 0 }

/-- How the body of a command ends (60_exceptions.md R131 step 3): it completes, having made its writes, or it raises an
error before any write, and only the draws it consumed are gone (20_memory.md R54 (c)). -/
inductive BodyEnd where
  | completes (s : State)
  | raises (k : ErrorKind) (ent : Entropy)
  deriving DecidableEq, Repr

/-- Steps 3 and 4 of the command envelope and FAIL (60_exceptions.md R131), from the state `s` in which the body started. -/
def finishCommand (s : State) : BodyEnd → Host.Outcome State Fault Refusal
  | .completes t => .next t.succeed
  | .raises k ent => .next ((s.setEntropy ent).raiseError k)

end Sys2Proof.Machine
end

