-- ==== Sys2Proof/Machine/Operands.lean ====
section
/-! DEFINITION. Operand forms: the only one of a command is register-direct (30_encoding.md R63), read and written by
`State.readX` and `State.writeX`; immediates (R64); and the limbs of a big-integer register, which only the host port moves
(00_scope.md R5, 20_memory.md R43). -/

namespace Sys2Proof.Machine

open Sys2Proof

/-- `imm8` as a natural 0 to 255, used as it stands (30_encoding.md R64). -/
def plaintextByte (imm8 : BitVec 8) : Nat := imm8.toNat

/-- `bits16` as a natural 0 to 65535, used as it stands (30_encoding.md R64). -/
def keySize (bits : BitVec 16) : Nat := bits.toNat

/-- Limb `i` of `v`: `v[32i+31 : 32i]` (00_scope.md R5). -/
def limb (v i : Nat) : Word := BitVec.ofNat 32 (v / 2 ^ (32 * i))

/-- `v` with limb `i` replaced by `w`, the other bits kept: `v − v[32i+31:32i]*2^(32i) + w*2^(32i)` (20_memory.md R43). -/
def setLimb (v i : Nat) (w : Word) : Nat :=
  v - (limb v i).toNat * 2 ^ (32 * i) + w.toNat * 2 ^ (32 * i)

end Sys2Proof.Machine
end

