-- ==== Sys2Proof/Machine/ModMul.lean ====
section
/-! DEFINITION. Modular reduction and multiplication: MODRED, MODMUL (40_modmul.md). The value is the mathematical one; the
method is not visible (R82). -/

namespace Sys2Proof.Machine

open Sys2Proof

/-- MODRED: `x[rd] <- x[ra] mod x[rm]` (40_modmul.md R80). -/
def execModred (rd ra rm : Reg) (s : State) : Host.Outcome State Fault Refusal :=
  let a := s.readX ra
  let m := s.readX rm
  finishCommand s <|
    if m = 0 then .raises .zeroModulus s.entropy
    else .completes (s.writeX rd (a % m))

/-- MODMUL: `x[rd] <- (x[ra] * x[rb]) mod x[rm]`, the product exact (40_modmul.md R81). -/
def execModmul (rd ra rb rm : Reg) (s : State) : Host.Outcome State Fault Refusal :=
  let a := s.readX ra
  let b := s.readX rb
  let m := s.readX rm
  finishCommand s <|
    if m = 0 then .raises .zeroModulus s.entropy
    else .completes (s.writeX rd (a * b % m))

end Sys2Proof.Machine
end

