-- ==== Sys2Proof/Machine/ModInv.lean ====
section
/-! DEFINITION. Modular inverse by the extended Euclidean algorithm (42_modinv.md R102), and MODINV (R101). -/

namespace Sys2Proof.Machine

open Sys2Proof

/-- The loop `while r1 != 0` of `ModInvRef` (42_modinv.md R102), which answers the final `(r0, t0)`. `r1` strictly decreases
(70_reset_and_hazards.md R158), so a bound of more than the first `r1` passes is never reached (log entry 6). -/
def euclidLoop : Nat → Nat → Nat → Int → Int → Nat × Int
  | 0, r0, _, t0, _ => (r0, t0)
  | bound + 1, r0, r1, t0, t1 =>
    if r1 = 0 then (r0, t0)
    else
      let q := r0 / r1
      euclidLoop bound r1 (r0 - q * r1) t1 (t0 - q * t1)

/-- `ModInvRef(a, m)` for `m ≥ 1` (42_modinv.md R102): the inverse, or none. The last line is the normalization into
`[0, m)`. -/
def modInv (a m : Nat) : Option Nat :=
  let r := euclidLoop (a % m + 1) m (a % m) 0 1
  if r.1 = 1 then some (r.2 % (m : Int)).toNat else none

/-- MODINV: `x[rd] <- ModInv(x[ra], x[rm])` (42_modinv.md R101). -/
def execModinv (rd ra rm : Reg) (s : State) : Host.Outcome State Fault Refusal :=
  let a := s.readX ra
  let m := s.readX rm
  finishCommand s <|
    if m = 0 then .raises .zeroModulus s.entropy
    else
      match modInv a m with
      | none => .raises .noModularInverse s.entropy
      | some d => .completes (s.writeX rd d)

end Sys2Proof.Machine
end

