-- ==== Sys2Proof/Machine/ModExp.lean ====
section
/-! DEFINITION. Modular exponentiation: the naive reference and the engine's square-and-multiply (41_modexp.md R90, R92), and
MODEXP (R91). -/

namespace Sys2Proof.Machine

open Sys2Proof

/-- The loop of `Naive(b, e, n)`: `repeat e times: r <- (r * b) mod n` (41_modexp.md R90). -/
def naiveLoop (b n : Nat) : Nat → Nat → Nat
  | 0, r => r
  | e + 1, r => naiveLoop b n e (r * b % n)

/-- `Naive(b, e, n)` (41_modexp.md R90). -/
def naiveModPow (b e n : Nat) : Nat := naiveLoop b n e (1 % n)

/-- One pass of `ModPowRef`'s loop for the bit `i` of `e` (41_modexp.md R92). -/
def modPowPass (bb e n i r : Nat) : Nat :=
  let sq := r * r % n
  if e.testBit i then sq * bb % n else sq

/-- The loop `for i = k - 1 downto 0` of `ModPowRef` (41_modexp.md R92). -/
def modPowLoop (bb e n : Nat) : Nat → Nat → Nat
  | 0, r => r
  | i + 1, r => modPowLoop bb e n i (modPowPass bb e n i r)

/-- `ModPowRef(b, e, n)`, left-to-right binary square-and-multiply (41_modexp.md R92). -/
def modPow (b e n : Nat) : Nat := modPowLoop (b % n) e n (bitLen e) (1 % n)

/-- MODEXP: `x[rd] <- ModPow(x[ra], x[rb], x[rm])` (41_modexp.md R91). -/
def execModexp (rd ra rb rm : Reg) (s : State) : Host.Outcome State Fault Refusal :=
  let b := s.readX ra
  let e := s.readX rb
  let m := s.readX rm
  finishCommand s <|
    if m = 0 then .raises .zeroModulus s.entropy
    else .completes (s.writeX rd (modPow b e m))

end Sys2Proof.Machine
end

