-- ==== Sys2Proof/Machine/PrimeTest.lean ====
section
/-! DEFINITION. The Miller-Rabin test (43_primetest.md R110) and PRIMETEST (R111). -/

namespace Sys2Proof.Machine

open Sys2Proof

/-- `s` and odd `t` with `n = 2^s * t`, for `n ≥ 1`, by at most `bound` halvings (43_primetest.md R110). -/
def splitTwos : Nat → Nat → Nat × Nat
  | 0, n => (0, n)
  | bound + 1, n =>
    if n % 2 = 0 then
      let r := splitTwos bound (n / 2)
      (r.1 + 1, r.2)
    else (0, n)

/-- The inner loop of 43_primetest.md R110, `j` squarings left: some square of `y` is `c - 1`. -/
def squaringsPass (c : Nat) : Nat → Nat → Bool
  | 0, _ => false
  | j + 1, y =>
    let sq := y * y % c
    if sq = c - 1 then true else squaringsPass c j sq

/-- One round of 43_primetest.md R110 with witness `a`, for `c - 1 = 2^s * t`: true goes on with the next round. -/
def roundPasses (c s t a : Nat) : Bool :=
  let y := modPow a t c
  if y = 1 ∨ y = c - 1 then true else squaringsPass c (s - 1) y

/-- The rounds of 43_primetest.md R110: each that is run draws its witness first; none is run after a failed one. -/
def millerRabinRounds (c s t : Nat) : Nat → Entropy → Bool × Entropy
  | 0, e => (true, e)
  | rounds + 1, e =>
    let v := drawBits (bitLen c) e
    if roundPasses c s t (2 + v.1 % (c - 3)) then millerRabinRounds c s t rounds v.2 else (false, v.2)

/-- `IsProbablePrime(c)` with `rounds = MR_ROUNDS` (43_primetest.md R110): the verdict and what is left of the entropy port. -/
def isProbablePrime (rounds c : Nat) (e : Entropy) : Bool × Entropy :=
  if c < 2 then (false, e)
  else if c < 4 then (true, e)
  else if c % 2 = 0 then (false, e)
  else
    let st := splitTwos (bitLen (c - 1)) (c - 1)
    millerRabinRounds c st.1 st.2 rounds e

/-- PRIMETEST: `PRIME <- 1 if IsProbablePrime(x[ra]) else 0` (43_primetest.md R111). -/
def execPrimetest (ra : Reg) (s : State) : Host.Outcome State Fault Refusal :=
  let c := s.readX ra
  let v := isProbablePrime s.cfg.mrRounds c s.entropy
  finishCommand s (.completes (s.setPrime v.1 v.2))

end Sys2Proof.Machine
end

