-- ==== Sys2Proof/Machine/RsaEngine.lean ====
section
/-! DEFINITION. The prime search (43_primetest.md R113) and the engine's operations GENERATE, ENCRYPT, DECRYPT
(44_rsa_engine.md R120 to R122). -/

namespace Sys2Proof.Machine

open Sys2Proof

/-- `E_PUB`, the public exponent (00_scope.md R4). -/
def publicExponent : Nat := 65537

/-- A candidate of `GenPrime(k)`: `DrawBits(k)` with bit `k - 1` set (43_primetest.md R113). -/
def drawCandidate (k : Nat) (e : Entropy) : Nat × Entropy :=
  let d := drawBits k e
  (d.1 ||| 2 ^ (k - 1), d.2)

/-- `GenPrime(k)` (43_primetest.md R113) with `left = TRY_LIMIT - tries` candidates left: the accepted candidate and the
candidates left after it, or none where it raises PrimeGenerationFailure; and what is left of the entropy port. -/
def genPrime (rounds k : Nat) : Nat → Entropy → Option (Nat × Nat) × Entropy
  | 0, e => (none, e)
  | left + 1, e =>
    let c := drawCandidate k e
    let v := isProbablePrime rounds c.1 c.2
    if v.1 then (some (c.1, left), v.2) else genPrime rounds k left v.2

/-- The key a pair of accepted candidates gives, or none where GENERATE draws both again: `p = q`, or 65537 not coprime
with `phi` (44_rsa_engine.md R120). The triple is `(N, E, D)`. -/
def keyOfPair (p q : Nat) : Option (Nat × Nat × Nat) :=
  if p = q then none
  else
    match modInv publicExponent ((p - 1) * (q - 1)) with
    | none => none
    | some d => some (p * q, publicExponent, d)

/-- The loop of GENERATE (44_rsa_engine.md R120) with `left` candidates left: the key, or none where a `GenPrime` raises
PrimeGenerationFailure. Every pass tests at least two candidates, so a bound above `left` passes is never reached (R158,
log entry 6). -/
def keySearch (rounds k : Nat) : Nat → Nat → Entropy → Option (Nat × Nat × Nat) × Entropy
  | 0, _, e => (none, e)
  | bound + 1, left, e =>
    match genPrime rounds k left e with
    | (none, e1) => (none, e1)
    | (some (p, left1), e1) =>
      match genPrime rounds k left1 e1 with
      | (none, e2) => (none, e2)
      | (some (q, left2), e2) =>
        match keyOfPair p q with
        | none => keySearch rounds k bound left2 e2
        | some key => (some key, e2)

/-- The body of GENERATE after its checks (44_rsa_engine.md R120). -/
def generateKey (k : Nat) (s : State) : BodyEnd :=
  match keySearch s.cfg.mrRounds k (s.cfg.tryLimit + 1) s.cfg.tryLimit s.entropy with
  | (none, e) => .raises .primeGenerationFailure e
  | (some (n, e, d), ent) => .completes (s.setKey n e d ent)

/-- GENERATE (44_rsa_engine.md R120): check 1, check 2, check 3, then the search. -/
def execGenerate (bits : BitVec 16) (s : State) : Host.Outcome State Fault Refusal :=
  let size := keySize bits
  let k := size / 2
  finishCommand s <|
    if s.engine = .keyGenerated then .raises .invalidState s.entropy
    else if size = 0 ∨ size % 2 = 1 then .raises .malformedSizeInput s.entropy
    else if k < 2 ∨ size > s.cfg.W then .raises .primeGenerationFailure s.entropy
    else generateKey k s

/-- ENCRYPT: `x[rd] <- ModPow(imm8, E, N)` (44_rsa_engine.md R121). -/
def execEncrypt (rd : Reg) (imm8 : BitVec 8) (s : State) : Host.Outcome State Fault Refusal :=
  let m := plaintextByte imm8
  finishCommand s <|
    if s.engine ≠ .keyGenerated then .raises .invalidState s.entropy
    else if m ≥ s.keyN then .raises .messageByteTooLarge s.entropy
    else .completes (s.writeX rd (modPow m s.keyE s.keyN))

/-- DECRYPT: `x[rd] <- ModPow(x[ra], D, N)` when it is below 256 (44_rsa_engine.md R122); `x[ra]` is not compared with `N`. -/
def execDecrypt (rd ra : Reg) (s : State) : Host.Outcome State Fault Refusal :=
  let c := s.readX ra
  finishCommand s <|
    if s.engine ≠ .keyGenerated then .raises .invalidState s.entropy
    else if modPow c s.keyD s.keyN ≥ 256 then .raises .decryptedValueOutOfRange s.entropy
    else .completes (s.writeX rd (modPow c s.keyD s.keyN))

end Sys2Proof.Machine
end

