-- ==== Sys2Proof/Machine/Dispatch.lean ====
section
/-! DEFINITION. One arm for each command: steps 3 and 4 of the command envelope (60_exceptions.md R131) for a decoded
command; the word is in CMD already. -/

namespace Sys2Proof.Machine

open Sys2Proof

def exec (i : Instr) (s : State) : Host.Outcome State Fault Refusal :=
  match i with
  | .modred rd ra rm => Sys2Proof.Machine.execModred rd ra rm s
  | .modmul rd ra rb rm => Sys2Proof.Machine.execModmul rd ra rb rm s
  | .modexp rd ra rb rm => Sys2Proof.Machine.execModexp rd ra rb rm s
  | .modinv rd ra rm => Sys2Proof.Machine.execModinv rd ra rm s
  | .primetest ra => Sys2Proof.Machine.execPrimetest ra s
  | .generate bits => Sys2Proof.Machine.execGenerate bits s
  | .encrypt rd imm8 => Sys2Proof.Machine.execEncrypt rd imm8 s
  | .decrypt rd ra => Sys2Proof.Machine.execDecrypt rd ra s

end Sys2Proof.Machine
end

