-- ==== Sys2Proof/Machine/Flags.lean ====
section
/-! DEFINITION. The three flags and the STATUS view (10_state.md R25, R29). There are no condition codes. -/

namespace Sys2Proof.Machine

open Sys2Proof

/-- `KEYGEN`: `STATE = KeyGenerated` (10_state.md R25). -/
def State.keygenFlag (s : State) : Bool := s.engine == .keyGenerated

/-- `ERRF`: `ERR ≠ 0` (10_state.md R25). -/
def State.errFlag (s : State) : Bool := s.err != 0

/-- STATUS: KEYGEN in bit 0, ERRF in bit 1, PRIME in bit 2, the others 0 (10_state.md R29). -/
def State.status (s : State) : Word :=
  BitVec.ofNat 32 (s.keygenFlag.toNat + 2 * s.errFlag.toNat + 4 * s.primeFlag.toNat)

end Sys2Proof.Machine
end

