-- ==== Sys2Proof/Machine/HostPort.lean ====
section
/-! DEFINITION. The register map of the host port (20_memory.md R42) and what a read returns and a write to any index but
CMD does (R41, R43 to R45; 10_state.md R26 to R33). -/

namespace Sys2Proof.Machine

open Sys2Proof

/-- What the map of 20_memory.md R42 puts at an index; `i` is the offset in a window, 0 to 0x3FF. -/
inductive PortTarget where
  | id | width | cmd | status | err | errlog | rounds | trylim
  | limbN (i : Nat)
  | limbE (i : Nat)
  | limbD (i : Nat)
  | limbX (j : Reg) (i : Nat)
  | reserved
  deriving DecidableEq, Repr

/-- The control registers, indices 0 to 7 (20_memory.md R42). -/
def controlTarget : Nat → PortTarget
  | 0 => .id
  | 1 => .width
  | 2 => .cmd
  | 3 => .status
  | 4 => .err
  | 5 => .errlog
  | 6 => .rounds
  | 7 => .trylim
  | _ => .reserved

/-- The windows and the reserved ranges, index 0x0008 and above (20_memory.md R42). -/
def windowTarget (n : Nat) : PortTarget :=
  if n < 0x2000 then .reserved
  else if n < 0x2400 then .limbN (n - 0x2000)
  else if n < 0x2800 then .limbE (n - 0x2400)
  else if n < 0x2C00 then .limbD (n - 0x2800)
  else if n < 0x4000 then .reserved
  else if n < 0x6000 then .limbX (Fin.ofNat 8 ((n - 0x4000) / 0x400)) ((n - 0x4000) % 0x400)
  else .reserved

/-- The map of 20_memory.md R42. -/
def portTarget (idx : Index) : PortTarget :=
  if idx.toNat < 8 then controlTarget idx.toNat else windowTarget idx.toNat

/-- `ID_VALUE` (00_scope.md R4, 10_state.md R26). -/
def idValue : Word := 0x52534131

/-- The index of CMD (20_memory.md R42). -/
def cmdIndex : Index := 0x0002

/-- The index of limb `i` of `xj` (20_memory.md R42). -/
def operandIndex (j : Reg) (i : Nat) : Index := BitVec.ofNat 16 (0x4000 + 0x400 * j.val + i)

/-- The byte address of an index where the platform maps the port into a byte-addressed space (20_memory.md R47). Nothing
inside the MAU depends on it. -/
def byteAddress (c : Config) (idx : Index) : Nat := c.base + 4 * idx.toNat

/-- A limb read of a window: beyond limb `L - 1` it reads 0 (20_memory.md R43). -/
def readLimb (c : Config) (v i : Nat) : Word := if i < c.limbs then limb v i else 0

/-- The word `HostRead(idx)` returns (20_memory.md R41, R42). -/
def portRead (s : State) (idx : Index) : Word :=
  match portTarget idx with
  | .id => idValue
  | .width => (BitVec.ofNat 16 s.cfg.W).setWidth 32
  | .cmd => s.cmd
  | .status => s.status
  | .err => s.err.setWidth 32
  | .errlog => s.errlog
  | .rounds => (BitVec.ofNat 8 s.cfg.mrRounds).setWidth 32
  | .trylim => BitVec.ofNat 32 s.cfg.tryLimit
  | .limbN i => readLimb s.cfg s.keyN i
  | .limbE i => readLimb s.cfg s.keyE i
  | .limbD i => readLimb s.cfg s.keyD i
  | .limbX j i => readLimb s.cfg (s.readX j) i
  | .reserved => 0

/-- `HostWrite(idx, v)` for an index other than CMD: a limb of an operand register is replaced; every other write, one beyond
limb `L - 1` too, is ignored (20_memory.md R43, R44, R45). -/
def portWrite (s : State) (idx : Index) (v : Word) : State :=
  match portTarget idx with
  | .limbX j i => if i < s.cfg.limbs then s.writeX j (setLimb (s.readX j) i v) else s
  | _ => s

end Sys2Proof.Machine
end

