-- ==== Sys2Proof/Machine/Transaction.lean ====
section
/-! DEFINITION. One host transaction as one indivisible step (00_scope.md R10), a write to CMD running the command envelope
(60_exceptions.md R131). -/

namespace Sys2Proof.Machine

open Sys2Proof

/-- A write of `v` to CMD: step 1 stores the word, step 2 decodes it, and an illegal word fails with code 9
(60_exceptions.md R131, 30_encoding.md R67). -/
def writeCommand (v : Word) (s : State) : Host.Outcome State Fault Refusal :=
  match decode v with
  | .illegal => .next ((s.setCmd v).raiseError .illegalCommand)
  | .command i => exec i (s.setCmd v)

/-- `HostWrite(idx, v)` (20_memory.md R41, R42). -/
def hostWrite (idx : Index) (v : Word) (s : State) : Host.Outcome State Fault Refusal :=
  match portTarget idx with
  | .cmd => writeCommand v s
  | _ => .next (portWrite s idx v)

/-- One event of the host side (20_memory.md R41, 70_reset_and_hazards.md R150); a reset inside a transaction is outside the
spec (00_scope.md R11, log entry 4). -/
def transact (ev : HostEvent) (s : State) : Host.Outcome State Fault Refusal :=
  match ev with
  | .read idx => .next (s.pushReply (portRead s idx))
  | .write idx v => hostWrite idx v s
  | .reset => .next s.resetMau
  | .resetInside _ _ => .refused .resetInsideTransaction

end Sys2Proof.Machine
end

