-- ==== Sys2Proof/Machine/Step.lean ====
section
/-! DEFINITION. One step: the next event the host issued takes effect (20_memory.md R51 (a)); with none the MAU "holds its
state and does nothing" (60_exceptions.md R140). -/

namespace Sys2Proof.Machine

open Sys2Proof

/-- One step of the machine. -/
def step (s : State) : Host.Outcome State Fault Refusal :=
  match s.pending with
  | [] => .next s
  | ev :: rest => transact ev (s.setPending rest)

/-- The state in which the host's next transaction writes the command word `w` (its low `nbits` bits, the bits above zero) to
CMD, which is where the MAU gets its next command (20_memory.md R53, 10_state.md R24). Log entry 3. -/
def State.withFetchWord (s : State) (nbits w : Nat) : State :=
  s.setPending (.write cmdIndex (BitVec.ofNat 32 (w % 2 ^ nbits)) :: s.pending)

end Sys2Proof.Machine
end

