-- ==== Sys2Proof/Machine/Datapath.lean ====
section
/-! DEFINITION. The two methods the multiplier is named after, as the informative section of 40_modmul.md gives them. No
command calls them: the method is not visible (R82), and a command is the value of its rule. They stand here so that the
datapath can be proved equal to R81 (log entry 12). -/

namespace Sys2Proof.Machine

open Sys2Proof

/-- `n' = (−n^(−1)) mod R` for `R = 2^r` and odd `n` (40_modmul.md, informative section); 0 where `n` has no inverse. -/
def montgomeryConstant (n r : Nat) : Nat :=
  match modInv n (2 ^ r) with
  | some i => (2 ^ r - i) % 2 ^ r
  | none => 0

/-- `REDC(T)` with `R = 2^r` (40_modmul.md, informative section). -/
def redc (n r T : Nat) : Nat :=
  let u := (T % 2 ^ r) * montgomeryConstant n r % 2 ^ r
  let t := (T + u * n) / 2 ^ r
  if t ≥ n then t - n else t

/-- `REDC(REDC(a_r * b_r) * (R^2 mod n))` with the factors reduced first (40_modmul.md, informative section). -/
def montgomeryMul (n r a b : Nat) : Nat :=
  redc n r (redc n r ((a % n) * (b % n)) * (2 ^ r * 2 ^ r % n))

/-- `BARRETT(x)` with `k = len(n)` and at most two subtractions (40_modmul.md, informative section). -/
def barrett (n x : Nat) : Nat :=
  let k := bitLen n
  let mu := 2 ^ (2 * k) / n
  let q := x / 2 ^ (k - 1) * mu / 2 ^ (k + 1)
  let r0 := x - q * n
  let r1 := if r0 ≥ n then r0 - n else r0
  if r1 ≥ n then r1 - n else r1

/-- A datapath that uses Montgomery for odd moduli `n ≥ 3` and Barrett for the others (40_modmul.md, informative section). -/
def datapathMul (width n a b : Nat) : Nat :=
  if n % 2 = 1 ∧ 3 ≤ n then montgomeryMul n width a b else barrett n ((a % n) * (b % n))

end Sys2Proof.Machine
end

