-- ==== Sys2Proof/Machine/HostScript.lean ====
section
/-! DEFINITION. The lines of a host script and the transactions each expands to, the pseudo-instructions among them
(30_encoding.md R70). A script is the host's own; the MAU sees the transactions only. -/

namespace Sys2Proof.Machine

open Sys2Proof

/-- The lines of 30_encoding.md R70. -/
inductive HostLine where
  | wr (idx : Index) (v : Word)
  | rd (idx : Index)
  | command (i : Instr)
  | modsqr (rd ra rm : Reg)
  | set (j : Reg) (v : Nat)
  | get (j : Reg)
  | getn
  | gete
  | getd
  deriving DecidableEq, Repr

/-- Any command of R69: one write of its word to CMD (30_encoding.md R70). -/
def commandEvent (i : Instr) : HostEvent := .write cmdIndex (encode i)

/-- `L` reads at a window's base, ascending (30_encoding.md R70). -/
def windowReads (base limbs : Nat) : List HostEvent :=
  (List.range limbs).map fun i => .read (BitVec.ofNat 16 (base + i))

/-- `L` writes that set `xj` to `v`, ascending, zero limbs included (30_encoding.md R70). -/
def setWrites (j : Reg) (v limbs : Nat) : List HostEvent :=
  (List.range limbs).map fun i => .write (operandIndex j i) (limb v i)

/-- The transactions a line expands to on hardware with parameters `c` (30_encoding.md R70). -/
def HostLine.expand (c : Config) : HostLine → List HostEvent
  | .wr idx v => [.write idx v]
  | .rd idx => [.read idx]
  | .command i => [commandEvent i]
  | .modsqr d a m => [commandEvent (.modmul d a a m)]
  | .set j v => setWrites j v c.limbs
  | .get j => windowReads (0x4000 + 0x400 * j.val) c.limbs
  | .getn => windowReads 0x2000 c.limbs
  | .gete => windowReads 0x2400 c.limbs
  | .getd => windowReads 0x2800 c.limbs

/-- The value of the words a `get` line returned, given newest first: `Σ word_i * 2^(32i)` (30_encoding.md R70). -/
def valueOfReplies : List Word → Nat
  | [] => 0
  | w :: older => w.toNat * 2 ^ (32 * older.length) + valueOfReplies older

end Sys2Proof.Machine
end

