-- ==== Sys2Proof/Safety.lean ====
section
/-! DEFINITION. What a good state and a good run are, in the terms the statements use: the registers hold values of their
width (10_state.md R21, R22), the key registers keep the invariants of R37, the error registers hold codes the MAU raises
(R30, R31), and a run is the host's events taken one by one after a reset (00_scope.md R11). -/

namespace Sys2Proof.Machine

open Sys2Proof

/-- Every big-integer register holds a natural in `[0, 2^W)` (10_state.md R21, R22). -/
def State.RegistersFit (s : State) : Prop :=
  (∀ r : Reg, s.readX r < 2 ^ s.cfg.W) ∧ s.keyN < 2 ^ s.cfg.W ∧ s.keyE < 2 ^ s.cfg.W ∧ s.keyD < 2 ^ s.cfg.W

/-- `IsProbablePrime` accepts `c` for some draws (43_primetest.md R110, R112). -/
def Accepted (rounds c : Nat) : Prop := ∃ e : Entropy, (isProbablePrime rounds c e).1 = true

/-- The key registers hold a key made from `p` and `q` (10_state.md R37), two numbers of `k = bits / 2` bits for a legal
key size (44_rsa_engine.md R120). -/
def State.KeyFrom (s : State) (p q k : Nat) : Prop :=
  p ≠ q ∧ (2 ≤ k ∧ 2 * k ≤ s.cfg.W) ∧
  (2 ^ (k - 1) ≤ p ∧ p < 2 ^ k) ∧ (2 ^ (k - 1) ≤ q ∧ q < 2 ^ k) ∧
  Accepted s.cfg.mrRounds p ∧ Accepted s.cfg.mrRounds q ∧
  s.keyN = p * q ∧ s.keyE = 65537 ∧ s.keyD < (p - 1) * (q - 1) ∧
  s.keyE * s.keyD % ((p - 1) * (q - 1)) = 1 % ((p - 1) * (q - 1)) ∧
  Nat.gcd s.keyE ((p - 1) * (q - 1)) = 1

/-- The invariants of the key registers (10_state.md R37). -/
def State.KeyInvariant (s : State) : Prop :=
  (s.engine = .uninitialized → s.keyN = 0 ∧ s.keyE = 0 ∧ s.keyD = 0) ∧
  (s.engine = .keyGenerated → ∃ p q k, s.KeyFrom p q k)

/-- A code the MAU stores in ERR for a failure: 1 to 9 but 5 (10_state.md R30, R31; 60_exceptions.md R130). -/
def RaisedCode (c : Nat) : Prop := 1 ≤ c ∧ c ≤ 9 ∧ c ≠ 5

/-- ERR holds 0 or a raised code, ERRLOG has bits of raised codes only, and the code in ERR is among them
(10_state.md R30, R31; 60_exceptions.md R131). -/
def State.ErrorsWellFormed (s : State) : Prop :=
  (s.err = 0 ∨ RaisedCode s.err.toNat) ∧
  (∀ c, s.errlog.getLsbD c = true → RaisedCode c) ∧
  (s.err ≠ 0 → s.errlog.getLsbD s.err.toNat = true)

/-- The invariant of the machine. -/
def State.Inv (s : State) : Prop :=
  s.cfg.Valid ∧ s.RegistersFit ∧ s.KeyInvariant ∧ s.ErrorsWellFormed

/-- The start of a run (00_scope.md R11): hardware with parameters `c` after reset, the host's events `evs` to come, and
`script` the words the entropy port delivers first. -/
def State.runStart (c : Config) (evs : List HostEvent) (script : List Word) : State :=
  { State.resetOf c with pending := evs, entropy := { script := script, taken := 0 } }

/-- `n` steps of the machine (00_scope.md R10: one transaction each). -/
def runSteps : Nat → State → Host.Outcome State Fault Refusal
  | 0, s => .next s
  | n + 1, s =>
    match step s with
    | .next t => runSteps n t
    | .fault r => .fault r
    | .refused r => .refused r

/-- A host event inside the spec's scope: any but a reset inside a transaction (00_scope.md R11). -/
def HostEvent.InScope (ev : HostEvent) : Prop := ∀ idx v, ev ≠ .resetInside idx v

end Sys2Proof.Machine
end

