-- ==== Sys2Proof/Certificates/Slice0/Obligations.lean ====
section
/-! DEFINITION. The statements about the model. Each docstring names the rule of spec/ it formalises; a statement that rests on
a rule the spec itself derives or takes from general knowledge, or on a choice of the model, says so. -/

open Sys2Proof Sys2Proof.Machine

/-! ## Encoding -/

/-- Decoding the word of any command gives the command back, at every value of every operand (30_encoding.md R62, R65,
R71). -/
def Obligations.DecodeInvertsEncode : Prop :=
  ∀ i : Instr, decode (encode i) = .command i

/-- A word that decodes to a command is the command's word: no two words mean one command (30_encoding.md R65, R66). -/
def Obligations.EncodeInvertsDecode : Prop :=
  ∀ (w : Word) (i : Instr), decode w = .command i → encode i = w

/-- 30_encoding.md R65: a word is a command of a row exactly when it matches the row under its mask; the rows are disjoint;
the opcode bytes are the table's, and every other value is reserved. -/
def Obligations.RowIsMaskAndMatch : Prop :=
  (∀ (w : Word) (o : Opcode), (∃ i, decode w = .command i ∧ i.opcode = o) ↔ w &&& o.maskBits = o.matchBits) ∧
  (∀ (w : Word) (o o' : Opcode), w &&& o.maskBits = o.matchBits → w &&& o'.maskBits = o'.matchBits → o = o') ∧
  (∀ w : Word, (fieldsOf w).op ∉ [0x01#8, 0x02#8, 0x03#8, 0x04#8, 0x05#8, 0x10#8, 0x11#8, 0x12#8] → decode w = .illegal) ∧
  (Opcode.all.map Opcode.byte = [0x01#8, 0x02#8, 0x03#8, 0x04#8, 0x05#8, 0x10#8, 0x11#8, 0x12#8]) ∧
  (Opcode.all.map Opcode.format = [.M3, .M4, .M4, .M3, .M1, .G, .I, .M2])

/-- A word decodes to a command exactly when its fields are well formed by the formats of 30_encoding.md R62, with R63 and
R66. -/
def Obligations.CommandsAreWellFormedFields : Prop :=
  ∀ w : Word, decode w ≠ .illegal ↔ (fieldsOf w).wellFormed = true

/-- The encoding column of 30_encoding.md R69, for every operand. -/
def Obligations.AssemblerEncodings : Prop :=
  (∀ d a m : Reg, (encode (.modred d a m)).toNat = 0x01000000 + d * 2 ^ 20 + a * 2 ^ 16 + m * 2 ^ 8) ∧
  (∀ d a b m : Reg, (encode (.modmul d a b m)).toNat = 0x02000000 + d * 2 ^ 20 + a * 2 ^ 16 + b * 2 ^ 12 + m * 2 ^ 8) ∧
  (∀ d a b m : Reg, (encode (.modexp d a b m)).toNat = 0x03000000 + d * 2 ^ 20 + a * 2 ^ 16 + b * 2 ^ 12 + m * 2 ^ 8) ∧
  (∀ d a m : Reg, (encode (.modinv d a m)).toNat = 0x04000000 + d * 2 ^ 20 + a * 2 ^ 16 + m * 2 ^ 8) ∧
  (∀ a : Reg, (encode (.primetest a)).toNat = 0x05000000 + a * 2 ^ 16) ∧
  (∀ bits : BitVec 16, (encode (.generate bits)).toNat = 0x10000000 + bits.toNat) ∧
  (∀ (d : Reg) (imm8 : BitVec 8), (encode (.encrypt d imm8)).toNat = 0x11000000 + d * 2 ^ 20 + imm8.toNat) ∧
  (∀ d a : Reg, (encode (.decrypt d a)).toNat = 0x12000000 + d * 2 ^ 20 + a * 2 ^ 16)

/-- The example words of 30_encoding.md R69 decode to the commands they stand for. -/
def Obligations.ExampleWordsDecode : Prop :=
  decode 0x03312400 = .command (.modexp 3 1 2 4) ∧ decode 0x02312400 = .command (.modmul 3 1 2 4) ∧
  decode 0x01210400 = .command (.modred 2 1 4) ∧ decode 0x04210400 = .command (.modinv 2 1 4) ∧
  decode 0x05050000 = .command (.primetest 5) ∧ decode 0x1000000C = .command (.generate 12) ∧
  decode 0x11000041 = .command (.encrypt 0 65) ∧ decode 0x12100000 = .command (.decrypt 1 0)

/-! ## Steps and the command envelope -/

/-- A step whose next transaction writes the word of a command to CMD stores the word and runs that command
(10_state.md R28, 20_memory.md R53, 60_exceptions.md R131); that the transaction waits in `pending` is the model's (log
entry 3). -/
def Obligations.StepRunsTheDecodedCommand : Prop :=
  ∀ (s : State) (w : Word) (i : Instr) (rest : List HostEvent),
    s.pending = .write 0x0002 w :: rest → decode w = .command i →
    step s = exec i { s with pending := rest, cmd := w }

/-- 30_encoding.md R67: an illegal word (a reserved opcode, a reserved specifier in a used field, a non-zero unused field)
is stored in CMD and raises IllegalCommand, with no other effect; the all-zero and the all-one word are illegal. -/
def Obligations.IllegalWordOnlyRaises : Prop :=
  (∀ (s : State) (w : Word) (rest : List HostEvent),
    s.pending = .write 0x0002 w :: rest → (fieldsOf w).wellFormed = false →
    step s = .next { s with pending := rest, cmd := w, err := 9, errlog := s.errlog ||| 0x200 }) ∧
  (fieldsOf 0x00000000).wellFormed = false ∧ (fieldsOf 0xFFFFFFFF).wellFormed = false

/-- 60_exceptions.md R132: every command ends, and one that fails with code `c` changes CMD, ERR and ERRLOG only. The draws a
failing GENERATE consumed are not returned: after a search the port is what the search leaves, and one that fails has drawn
`TRY_LIMIT` candidates at least. A command that succeeds stores 0 in ERR and leaves ERRLOG (R131). -/
def Obligations.FailingCommandsArePrecise : Prop :=
  ∀ (s : State) (w : Word) (rest : List HostEvent), s.pending = .write 0x0002 w :: rest →
    ∃ t, step s = .next t ∧ t.cmd = w ∧ s.entropy.taken ≤ t.entropy.taken ∧
      ((t.err = 0 ∧ t.errlog = s.errlog) ∨
       (∃ c, 1 ≤ c ∧ c ≤ 9 ∧ c ≠ 5 ∧ t.err.toNat = c ∧
        t.toArch = { s.toArch with cmd := w, err := t.err, errlog := s.errlog ||| (1#32 <<< c) })) ∧
      (∀ bits, decode w = .command (.generate bits) → s.engine = .uninitialized →
        bits.toNat % 2 = 0 → 4 ≤ bits.toNat → bits.toNat ≤ s.cfg.W →
        t.entropy = (keySearch s.cfg.mrRounds (bits.toNat / 2) (s.cfg.tryLimit + 1) s.cfg.tryLimit s.entropy).2 ∧
        (t.err ≠ 0 → s.entropy.taken + s.cfg.tryLimit * ((bits.toNat / 2 + 31) / 32) ≤ t.entropy.taken))

/-- Draws are consumed only by PRIMETEST and GENERATE (20_memory.md R54 (c)). -/
def Obligations.OnlyTestsAndSearchesDraw : Prop :=
  ∀ (i : Instr) (s t : State), exec i s = .next t → i.opcode ≠ .primetest → i.opcode ≠ .generate →
    t.entropy = s.entropy

/-! ## MODRED, MODMUL, MODEXP, MODINV -/

/-- 40_modmul.md R80: MODRED writes `x[ra] mod x[rm]`, in `[0, x[rm])`, and nothing else; a zero modulus raises
ZeroModulus and leaves the destination. In both engine states. -/
def Obligations.ModredResult : Prop :=
  ∀ (s : State) (d a m : Reg),
    Instr.EncodedAs (.modred d a m) 0x01 .M3 ∧
    (s.x[m] = 0 → exec (.modred d a m) s = .next { s with err := 7, errlog := s.errlog ||| 0x80 }) ∧
    (s.x[m] ≠ 0 → s.x[a] % s.x[m] < s.x[m] ∧
      exec (.modred d a m) s = .next { s with x := s.x.set d (s.x[a] % s.x[m]), err := 0 })

/-- 40_modmul.md R81: MODMUL writes the exact product reduced, in `[0, x[rm])`, and nothing else; a zero modulus raises
ZeroModulus. -/
def Obligations.ModmulResult : Prop :=
  ∀ (s : State) (d a b m : Reg),
    Instr.EncodedAs (.modmul d a b m) 0x02 .M4 ∧
    (s.x[m] = 0 → exec (.modmul d a b m) s = .next { s with err := 7, errlog := s.errlog ||| 0x80 }) ∧
    (s.x[m] ≠ 0 → s.x[a] * s.x[b] % s.x[m] < s.x[m] ∧
      exec (.modmul d a b m) s = .next { s with x := s.x.set d (s.x[a] * s.x[b] % s.x[m]), err := 0 })

/-- 41_modexp.md R91: MODEXP writes the exact power reduced, `0^0 = 1` included, in `[0, x[rm])`, and nothing else; a zero
modulus raises ZeroModulus whatever the base and exponent. -/
def Obligations.ModexpResult : Prop :=
  ∀ (s : State) (d a b m : Reg),
    Instr.EncodedAs (.modexp d a b m) 0x03 .M4 ∧
    (s.x[m] = 0 → exec (.modexp d a b m) s = .next { s with err := 7, errlog := s.errlog ||| 0x80 }) ∧
    (s.x[m] ≠ 0 → s.x[a] ^ s.x[b] % s.x[m] < s.x[m] ∧
      exec (.modexp d a b m) s = .next { s with x := s.x.set d (s.x[a] ^ s.x[b] % s.x[m]), err := 0 })

/-- 42_modinv.md R101 with the function of R100: MODINV writes the unique inverse in `[0, x[rm])` and nothing else; a zero
modulus raises ZeroModulus, and a value that is not coprime NoModularInverse, the destination left. -/
def Obligations.ModinvResult : Prop :=
  ∀ (s : State) (d a m : Reg),
    Instr.EncodedAs (.modinv d a m) 0x04 .M3 ∧
    (s.x[m] = 0 → exec (.modinv d a m) s = .next { s with err := 7, errlog := s.errlog ||| 0x80 }) ∧
    (s.x[m] ≠ 0 → Nat.gcd s.x[a] s.x[m] ≠ 1 →
      exec (.modinv d a m) s = .next { s with err := 2, errlog := s.errlog ||| 0x4 }) ∧
    (s.x[m] ≠ 0 → Nat.gcd s.x[a] s.x[m] = 1 →
      ∃ v, v < s.x[m] ∧ s.x[a] * v % s.x[m] = 1 % s.x[m] ∧
        (∀ v', v' < s.x[m] → s.x[a] * v' % s.x[m] = 1 % s.x[m] → v' = v) ∧
        exec (.modinv d a m) s = .next { s with x := s.x.set d v, err := 0 })

/-- The engine's square-and-multiply is the naive reference and the exact power (41_modexp.md R90 and R92: the spec derives
the equality of R92). -/
def Obligations.SquareAndMultiplyIsNaive : Prop :=
  ∀ b e n : Nat, 1 ≤ n → modPow b e n = naiveModPow b e n ∧ naiveModPow b e n = b ^ e % n

/-- The Euclidean algorithm is the function `ModInv` (42_modinv.md R100 and R102: the spec derives the equality). -/
def Obligations.EuclidComputesTheInverse : Prop :=
  ∀ a m : Nat, 1 ≤ m →
    (Nat.gcd (a % m) m = 1 → ∃ d, modInv a m = some d ∧ d < m ∧ a * d % m = 1 % m ∧
      ∀ d', d' < m → a * d' % m = 1 % m → d' = d) ∧
    (Nat.gcd (a % m) m ≠ 1 → modInv a m = none)

/-! ## The primality test -/

/-- `DrawBits(k)` (00_scope.md R8) takes `⌈k/32⌉` draws in order, the first the least significant limb, and drops the bits above
`k - 1`. Draw `i` is the next word of the port's script or, past its end, the free value: that form is the model's choice (log
entry 2). -/
def Obligations.DrawBitsAssemblesDraws : Prop :=
  ∀ (k : Nat) (e : Entropy), 1 ≤ k →
    drawBits k e =
      ((∑ i ∈ Finset.range ((k + 31) / 32), (e.script.getD i (Config.entropyWord (e.taken + i))).toNat * 2 ^ (32 * i)) % 2 ^ k,
        ⟨e.script.drop ((k + 31) / 32), e.taken + (k + 31) / 32⟩)

/-- 43_primetest.md R110: the early verdicts without a draw; and for an odd candidate of at least 5 each round draws a
witness `2 + (v mod (c - 3))`, passes exactly when `a^t ≡ 1` or `a^(2^j t) ≡ -1 (mod c)` for a `j < s`, goes on with the
next round or answers `false`, and no round left answers `true`. -/
def Obligations.MillerRabinRounds : Prop :=
  (∀ (rounds c : Nat) (e : Entropy),
    (c < 2 → isProbablePrime rounds c e = (false, e)) ∧
    (2 ≤ c → c < 4 → isProbablePrime rounds c e = (true, e)) ∧
    (4 ≤ c → c % 2 = 0 → isProbablePrime rounds c e = (false, e))) ∧
  (∀ c : Nat, 5 ≤ c → c % 2 = 1 → ∃ s t, 1 ≤ s ∧ t % 2 = 1 ∧ c - 1 = 2 ^ s * t ∧
    (∀ e, isProbablePrime 0 c e = (true, e)) ∧
    (∀ (rounds : Nat) (e : Entropy),
      let v := drawBits (bitLen c) e
      let a := 2 + v.1 % (c - 3)
      ((a ^ t % c = 1 ∨ ∃ j, j < s ∧ a ^ (2 ^ j * t) % c = c - 1) →
        isProbablePrime (rounds + 1) c e = isProbablePrime rounds c v.2) ∧
      (¬(a ^ t % c = 1 ∨ ∃ j, j < s ∧ a ^ (2 ^ j * t) % c = c - 1) →
        isProbablePrime (rounds + 1) c e = (false, v.2))))

/-- The test draws between one round's and all rounds' words for an odd candidate of at least 5, and none otherwise
(43_primetest.md R110, its paragraph on draws). -/
def Obligations.PrimeTestDrawCount : Prop :=
  ∀ (rounds c : Nat) (e : Entropy), 1 ≤ rounds →
    (5 ≤ c → c % 2 = 1 →
      e.taken + (bitLen c + 31) / 32 ≤ (isProbablePrime rounds c e).2.taken ∧
      (isProbablePrime rounds c e).2.taken ≤ e.taken + rounds * ((bitLen c + 31) / 32)) ∧
    (c < 5 ∨ c % 2 = 0 → (isProbablePrime rounds c e).2 = e)

/-- The test never rejects a prime, whatever the draws (43_primetest.md, "What the verdict means", (a): the spec takes it
from general knowledge). -/
def Obligations.PrimesAreAlwaysAccepted : Prop :=
  ∀ (rounds c : Nat) (e : Entropy), Nat.Prime c → (isProbablePrime rounds c e).1 = true

/-- 9 and 33 have no passing witness, so they are rejected for every draw (43_primetest.md, "What the verdict means", its
example). -/
def Obligations.NineAndThirtyThreeRejected : Prop :=
  ∀ (rounds : Nat) (e : Entropy), 1 ≤ rounds →
    (isProbablePrime rounds 9 e).1 = false ∧ (isProbablePrime rounds 33 e).1 = false

/-- 43_primetest.md R111: PRIMETEST writes the verdict to PRIME, consumes the test's draws, and changes nothing else; its
corner cases 0, 1, 2, 3 and the even numbers draw nothing. -/
def Obligations.PrimetestResult : Prop :=
  ∀ (s : State) (a : Reg),
    Instr.EncodedAs (.primetest a) 0x05 .M1 ∧
    exec (.primetest a) s = .next { s with
      primeFlag := (isProbablePrime s.cfg.mrRounds s.x[a] s.entropy).1
      entropy := (isProbablePrime s.cfg.mrRounds s.x[a] s.entropy).2
      err := 0 } ∧
    (s.x[a] < 2 → exec (.primetest a) s = .next { s with primeFlag := false, err := 0 }) ∧
    (s.x[a] = 2 ∨ s.x[a] = 3 → exec (.primetest a) s = .next { s with primeFlag := true, err := 0 }) ∧
    (4 ≤ s.x[a] → s.x[a] % 2 = 0 → exec (.primetest a) s = .next { s with primeFlag := false, err := 0 })

/-! ## GENERATE -/

/-- 43_primetest.md R113: a candidate is `DrawBits(k)` with bit `k - 1` set, so it has exactly `k` bits; an accepted one is
the answer, a rejected one is followed by a fresh one, and no candidate left is the failure. -/
def Obligations.PrimeSearchTriesCandidates : Prop :=
  ∀ (rounds k : Nat) (e : Entropy), 2 ≤ k →
    genPrime rounds k 0 e = (none, e) ∧
    ∃ c, 2 ^ (k - 1) ≤ c ∧ c < 2 ^ k ∧ c % 2 ^ (k - 1) = (drawBits k e).1 % 2 ^ (k - 1) ∧
      ∀ (left : Nat) (e' : Entropy),
        (isProbablePrime rounds c (drawBits k e).2 = (true, e') → genPrime rounds k (left + 1) e = (some (c, left), e')) ∧
        (isProbablePrime rounds c (drawBits k e).2 = (false, e') → genPrime rounds k (left + 1) e = genPrime rounds k left e')

/-- The checks of GENERATE in their order (44_rsa_engine.md R120, 60_exceptions.md R133), none of which draws. -/
def Obligations.GenerateChecksInOrder : Prop :=
  ∀ (s : State) (bits : BitVec 16),
    (s.engine = .keyGenerated →
      exec (.generate bits) s = .next { s with err := 8, errlog := s.errlog ||| 0x100 }) ∧
    (s.engine = .uninitialized → (bits.toNat = 0 ∨ bits.toNat % 2 = 1) →
      exec (.generate bits) s = .next { s with err := 6, errlog := s.errlog ||| 0x40 }) ∧
    (s.engine = .uninitialized → bits.toNat % 2 = 0 → (bits.toNat = 2 ∨ (bits.toNat ≠ 0 ∧ s.cfg.W < bits.toNat)) →
      exec (.generate bits) s = .next { s with err := 1, errlog := s.errlog ||| 0x2 })

/-- GENERATE with a first pair of accepted, distinct candidates whose `phi` is coprime with 65537 writes the key of that pair
and nothing else (44_rsa_engine.md R120). -/
def Obligations.GenerateTakesTheFirstGoodPair : Prop :=
  ∀ (s : State) (bits : BitVec 16) (p q : Nat) (e1 e2 e3 e4 : Entropy),
    s.engine = .uninitialized → bits.toNat % 2 = 0 → 4 ≤ bits.toNat → bits.toNat ≤ s.cfg.W → 2 ≤ s.cfg.tryLimit →
    drawCandidate (bits.toNat / 2) s.entropy = (p, e1) → isProbablePrime s.cfg.mrRounds p e1 = (true, e2) →
    drawCandidate (bits.toNat / 2) e2 = (q, e3) → isProbablePrime s.cfg.mrRounds q e3 = (true, e4) →
    p ≠ q → Nat.gcd 65537 ((p - 1) * (q - 1)) = 1 →
    ∃ d, d < (p - 1) * (q - 1) ∧ 65537 * d % ((p - 1) * (q - 1)) = 1 % ((p - 1) * (q - 1)) ∧
      exec (.generate bits) s = .next { s with
        keyN := p * q, keyE := 65537, keyD := d, engine := .keyGenerated, entropy := e4, err := 0 }

/-- A pair of equal candidates, or one whose `phi` shares a factor with 65537, is drawn again with the candidates that are
left (44_rsa_engine.md R120). -/
def Obligations.SearchRedrawsABadPair : Prop :=
  ∀ (rounds k left left1 left2 p q : Nat) (e e1 e2 : Entropy), 2 ≤ k →
    genPrime rounds k left e = (some (p, left1), e1) → genPrime rounds k left1 e1 = (some (q, left2), e2) →
    p = q ∨ Nat.gcd 65537 ((p - 1) * (q - 1)) ≠ 1 →
    keySearch rounds k (left + 1) left e = keySearch rounds k (left2 + 1) left2 e2

/-- The bound on the passes of GENERATE's loop is never what ends it (70_reset_and_hazards.md R158; log entry 6). -/
def Obligations.SearchBoundIsNeverReached : Prop :=
  ∀ (rounds k bound left : Nat) (e : Entropy), left < bound →
    keySearch rounds k bound left e = keySearch rounds k (left + 1) left e

/-- GENERATE always ends, and its outcomes are: an error of a check, which draws nothing; or, with no key and a legal size, the
error of a search that found none; or the key the search found, of two distinct accepted numbers of `bits / 2` bits, with `N`
of `bits - 1` or `bits` bits. After a search the port is what the search leaves (44_rsa_engine.md R120; 10_state.md R37, which
the spec derives). -/
def Obligations.GenerateMakesAKeyOrFails : Prop :=
  ∀ (s : State) (bits : BitVec 16), ∃ t, exec (.generate bits) s = .next t ∧
    let legal := s.engine = .uninitialized ∧ bits.toNat % 2 = 0 ∧ 4 ≤ bits.toNat ∧ bits.toNat ≤ s.cfg.W
    let found := keySearch s.cfg.mrRounds (bits.toNat / 2) (s.cfg.tryLimit + 1) s.cfg.tryLimit s.entropy
    ((¬legal ∧ ∃ c, (c = 1 ∨ c = 6 ∨ c = 8) ∧
        t = { s with err := BitVec.ofNat 8 c, errlog := s.errlog ||| (1#32 <<< c) }) ∨
     (legal ∧ found.1 = none ∧ t = { s with entropy := found.2, err := 1, errlog := s.errlog ||| 0x2 }) ∨
     (legal ∧ found.1 = some (t.keyN, 65537, t.keyD) ∧ (∃ p q, t.KeyFrom p q (bits.toNat / 2)) ∧
        2 ^ (bits.toNat - 2) ≤ t.keyN ∧ t.keyN < 2 ^ bits.toNat ∧
        t = { s with keyN := t.keyN, keyE := 65537, keyD := t.keyD, engine := .keyGenerated, entropy := found.2, err := 0 }))

/-- `bits = 4` gives one key only: `N = 6`, `D = 1` (44_rsa_engine.md R120, corner cases). -/
def Obligations.FourBitKeyIsSix : Prop :=
  ∀ s t : State, s.engine = .uninitialized → exec (.generate 4) s = .next t → t.engine = .keyGenerated →
    t.keyN = 6 ∧ t.keyE = 65537 ∧ t.keyD = 1

/-- An entropy source that returns 0 for ever: every candidate is `2^(k-1)`, even, rejected, and after TRY_LIMIT candidates
GENERATE raises PrimeGenerationFailure (70_reset_and_hazards.md R158). -/
def Obligations.ZeroDrawsExhaustTheSearch : Prop :=
  ∀ (s : State) (bits : BitVec 16) (rest : List Word),
    s.engine = .uninitialized → bits.toNat % 2 = 0 → 6 ≤ bits.toNat → bits.toNat ≤ s.cfg.W →
    s.entropy.script = List.replicate (s.cfg.tryLimit * ((bits.toNat / 2 + 31) / 32)) 0 ++ rest →
    exec (.generate bits) s = .next { s with
      entropy := { script := rest, taken := s.entropy.taken + s.cfg.tryLimit * ((bits.toNat / 2 + 31) / 32) }
      err := 1
      errlog := s.errlog ||| 0x2 }

/-! ## ENCRYPT and DECRYPT -/

/-- 44_rsa_engine.md R121: ENCRYPT writes `imm8^E mod N` and nothing else; InvalidState without a key, then
MessageByteTooLarge for a byte not below `N`. -/
def Obligations.EncryptResult : Prop :=
  ∀ (s : State) (d : Reg) (imm8 : BitVec 8),
    Instr.EncodedAs (.encrypt d imm8) 0x11 .I ∧
    (s.engine = .uninitialized →
      exec (.encrypt d imm8) s = .next { s with err := 8, errlog := s.errlog ||| 0x100 }) ∧
    (s.engine = .keyGenerated → s.keyN ≤ imm8.toNat →
      exec (.encrypt d imm8) s = .next { s with err := 3, errlog := s.errlog ||| 0x8 }) ∧
    (s.engine = .keyGenerated → imm8.toNat < s.keyN →
      imm8.toNat ^ s.keyE % s.keyN < s.keyN ∧
      exec (.encrypt d imm8) s = .next { s with x := s.x.set d (imm8.toNat ^ s.keyE % s.keyN), err := 0 })

/-- 44_rsa_engine.md R122: DECRYPT writes `x[ra]^D mod N` when it is below 256, whether or not `x[ra]` is below `N`, and
nothing else; InvalidState without a key, then DecryptedValueOutOfRange. -/
def Obligations.DecryptResult : Prop :=
  ∀ (s : State) (d a : Reg),
    Instr.EncodedAs (.decrypt d a) 0x12 .M2 ∧
    (s.engine = .uninitialized →
      exec (.decrypt d a) s = .next { s with err := 8, errlog := s.errlog ||| 0x100 }) ∧
    (s.engine = .keyGenerated → 256 ≤ s.x[a] ^ s.keyD % s.keyN →
      exec (.decrypt d a) s = .next { s with err := 4, errlog := s.errlog ||| 0x10 }) ∧
    (s.engine = .keyGenerated → s.x[a] ^ s.keyD % s.keyN < 256 →
      exec (.decrypt d a) s = .next { s with x := s.x.set d (s.x[a] ^ s.keyD % s.keyN), err := 0 })

/-- The round trip (44_rsa_engine.md, "Round trip", which the spec derives): with a key of two primes, the host's two
commands `encrypt xi, b` and `decrypt xj, xi` succeed and leave `b` in `xj`, for every byte below `N`. -/
def Obligations.EncryptThenDecryptReturnsTheByte : Prop :=
  ∀ (s : State) (p q k : Nat) (b : BitVec 8) (ri rj : Reg) (rest : List HostEvent),
    s.engine = .keyGenerated → s.KeyFrom p q k → Nat.Prime p → Nat.Prime q → b.toNat < s.keyN →
    s.pending = HostLine.expand s.cfg (.command (.encrypt ri b)) ++ HostLine.expand s.cfg (.command (.decrypt rj ri)) ++ rest →
    runSteps 2 s = .next { s with
      x := (s.x.set ri (b.toNat ^ s.keyE % s.keyN)).set rj b.toNat
      cmd := encode (.decrypt rj ri)
      err := 0
      pending := rest }

/-! ## Frames -/

/-- MODRED, MODMUL, MODEXP, MODINV, ENCRYPT and DECRYPT change no operand register but their destination, and no key
register, flag PRIME, engine state, command word, parameter or port (10_state.md R20, R22, R25; 40_modmul.md R83). -/
def Obligations.RegisterCommandsFrame : Prop :=
  ∀ (s t : State) (i : Instr) (d : Reg),
    ((∃ a m, i = .modred d a m) ∨ (∃ a b m, i = .modmul d a b m) ∨ (∃ a b m, i = .modexp d a b m) ∨
     (∃ a m, i = .modinv d a m) ∨ (∃ w, i = .encrypt d w) ∨ (∃ a, i = .decrypt d a)) →
    exec i s = .next t →
    (∀ r : Reg, r ≠ d → t.x[r] = s.x[r]) ∧
    t.keyN = s.keyN ∧ t.keyE = s.keyE ∧ t.keyD = s.keyD ∧ t.engine = s.engine ∧ t.primeFlag = s.primeFlag ∧
    t.cmd = s.cmd ∧ t.cfg = s.cfg ∧ t.entropy = s.entropy ∧ t.pending = s.pending ∧ t.replies = s.replies ∧
    (t.err ≠ 0 → t.x = s.x) ∧ (t.err = 0 → t.errlog = s.errlog)

/-- PRIMETEST changes PRIME, ERR and the draws only, and GENERATE the key, the engine state, ERR, ERRLOG and the draws only
(43_primetest.md R111, 44_rsa_engine.md R120, 10_state.md R25). -/
def Obligations.TestAndGenerateFrame : Prop :=
  (∀ (s t : State) (a : Reg), exec (.primetest a) s = .next t →
    t = { s with primeFlag := t.primeFlag, entropy := t.entropy, err := 0 }) ∧
  (∀ (s t : State) (bits : BitVec 16), exec (.generate bits) s = .next t →
    t = { s with keyN := t.keyN, keyE := t.keyE, keyD := t.keyD, engine := t.engine, entropy := t.entropy, err := t.err,
                 errlog := t.errlog } ∧
    (t.err ≠ 0 → t.keyN = s.keyN ∧ t.keyE = s.keyE ∧ t.keyD = s.keyD ∧ t.engine = s.engine) ∧
    (t.err = 0 → t.errlog = s.errlog))

/-- The five primitive commands do not depend on the key or the engine state, and do not touch them
(44_rsa_engine.md R123, 92_eei_decisions.md D26). -/
def Obligations.PrimitivesIgnoreTheKey : Prop :=
  ∀ (i : Instr) (s t : State) (n e d : Nat) (g : EngineState),
    i.opcode ∈ [Opcode.modred, .modmul, .modexp, .modinv, .primetest] → exec i s = .next t →
    exec i { s with keyN := n, keyE := e, keyD := d, engine := g } =
      .next { t with keyN := n, keyE := e, keyD := d, engine := g }

/-! ## Whole-machine rules -/

/-- The only change of STATE (10_state.md R23) is `Uninitialized → KeyGenerated` by a successful GENERATE, but for reset, which
starts a new engine instance. -/
def Obligations.StateChangesByGenerateOnly : Prop :=
  ∀ s t : State, step s = .next t → t.engine ≠ s.engine →
    (∃ rest, s.pending = .reset :: rest ∧ t.engine = .uninitialized) ∨
    (∃ w bits rest, s.pending = .write 0x0002 w :: rest ∧ decode w = .command (.generate bits) ∧
      s.engine = .uninitialized ∧ t.engine = .keyGenerated ∧ t.err = 0)

/-- The only writer of N, E, D is a successful GENERATE in `Uninitialized`; they keep their value until reset
(10_state.md R22). -/
def Obligations.KeyIsImmutable : Prop :=
  ∀ s t : State, step s = .next t →
    (t.keyN = s.keyN ∧ t.keyE = s.keyE ∧ t.keyD = s.keyD) ∨
    (∃ rest, s.pending = .reset :: rest) ∨
    (∃ w bits rest, s.pending = .write 0x0002 w :: rest ∧ decode w = .command (.generate bits) ∧
      s.engine = .uninitialized ∧ t.engine = .keyGenerated ∧ t.err = 0)

/-- PRIME is written by PRIMETEST only, but for reset (10_state.md R25). -/
def Obligations.PrimeWrittenByPrimetestOnly : Prop :=
  ∀ s t : State, step s = .next t → t.primeFlag ≠ s.primeFlag →
    (∃ rest, s.pending = .reset :: rest) ∨
    (∃ w a rest, s.pending = .write 0x0002 w :: rest ∧ decode w = .command (.primetest a) ∧ t.err = 0)

/-- No command and no host access clears a bit of ERRLOG, only reset does; and a bit that is new is that of the code now in
ERR (10_state.md R31). -/
def Obligations.ErrlogOnlyGrows : Prop :=
  ∀ (s t : State) (c : Nat), step s = .next t → (∀ rest, s.pending ≠ .reset :: rest) →
    (s.errlog.getLsbD c = true → t.errlog.getLsbD c = true) ∧
    (s.errlog.getLsbD c = false → t.errlog.getLsbD c = true → t.err.toNat = c)

/-- 60_exceptions.md R141: a host access other than a write to CMD always ends, never touches ERR or ERRLOG, and changes no
state but the limb of an operand register it writes. -/
def Obligations.HostAccessesRaiseNothing : Prop :=
  ∀ (s : State) (ev : HostEvent) (rest : List HostEvent), s.pending = ev :: rest →
    ((∃ idx, ev = .read idx) ∨ (∃ idx v, ev = .write idx v ∧ idx.toNat ≠ 2)) →
    ∃ t, step s = .next t ∧ t.err = s.err ∧ t.errlog = s.errlog ∧
      (t.toArch = s.toArch ∨
       ∃ (idx : Index) (v : Word) (j : Reg) (i n : Nat), ev = .write idx v ∧ idx.toNat = 0x4000 + 0x400 * j.val + i ∧
         i < s.cfg.W / 32 ∧ t.toArch = { s.toArch with x := s.x.set j n })

/-- A step never ends in a fault, and it is refused exactly on a reset inside a transaction, which the spec leaves outside
(70_reset_and_hazards.md R150 and R158, 00_scope.md R11; log entry 4). -/
def Obligations.OnlyAResetInsideIsRefused : Prop :=
  ∀ s : State,
    ((∃ t, step s = .next t) ∨ step s = .refused .resetInsideTransaction) ∧
    (step s = .refused .resetInsideTransaction ↔ ∃ idx v rest, s.pending = .resetInside idx v :: rest)

/-- With nothing issued the MAU holds its state (60_exceptions.md R140); that this is a step is the model's (log entry 3). -/
def Obligations.IdleHoldsTheState : Prop :=
  ∀ s : State, s.pending = [] → step s = .next s

/-! ## The host port -/

/-- A read of a control register returns its word and changes no state (10_state.md R26 to R33, 20_memory.md R41). -/
def Obligations.ControlRegisterReads : Prop :=
  ∀ (s : State) (idx : Index) (rest : List HostEvent), s.cfg.Valid → s.pending = .read idx :: rest →
    ∃ w, step s = .next { s with pending := rest, replies := w :: s.replies } ∧
      (idx.toNat = 0 → w = 0x52534131) ∧
      (idx.toNat = 1 → w.toNat = s.cfg.W) ∧
      (idx.toNat = 2 → w = s.cmd) ∧
      (idx.toNat = 4 → w.toNat = s.err.toNat) ∧
      (idx.toNat = 5 → w = s.errlog) ∧
      (idx.toNat = 6 → w.toNat = s.cfg.mrRounds) ∧
      (idx.toNat = 7 → w.toNat = s.cfg.tryLimit)

/-- 10_state.md R29: STATUS shows KEYGEN in bit 0, ERRF in bit 1, PRIME in bit 2 and zeros above, is not written, and reads 0
after reset. -/
def Obligations.StatusShowsTheFlags : Prop :=
  (∀ (s : State) (rest : List HostEvent), s.pending = .read 0x0003 :: rest →
    ∃ w, step s = .next { s with pending := rest, replies := w :: s.replies } ∧
      (w.getLsbD 0 = true ↔ s.engine = .keyGenerated) ∧ (w.getLsbD 1 = true ↔ s.err ≠ 0) ∧
      (w.getLsbD 2 = s.primeFlag) ∧ (∀ i, 3 ≤ i → w.getLsbD i = false)) ∧
  (∀ (s : State) (v : Word) (rest : List HostEvent), s.pending = .write 0x0003 v :: rest →
    step s = .next { s with pending := rest }) ∧
  (∀ c : Config, portRead (State.resetOf c) 0x0003 = 0)

/-- 20_memory.md R43: in every window index `B + i` below `L` reads limb `i`, and a write of `v` to an operand register's
replaces those 32 bits and no others; at `L` and above a read gives 0 and a write is ignored. -/
def Obligations.LimbWindows : Prop :=
  ∀ (s : State) (idx : Index) (i : Nat) (rest : List HostEvent), s.cfg.Valid → i < 0x400 →
    (s.pending = .read idx :: rest →
      ∃ w, step s = .next { s with pending := rest, replies := w :: s.replies } ∧
        (idx.toNat = 0x2000 + i → w.toNat = if i < s.cfg.W / 32 then s.keyN / 2 ^ (32 * i) % 2 ^ 32 else 0) ∧
        (idx.toNat = 0x2400 + i → w.toNat = if i < s.cfg.W / 32 then s.keyE / 2 ^ (32 * i) % 2 ^ 32 else 0) ∧
        (idx.toNat = 0x2800 + i → w.toNat = if i < s.cfg.W / 32 then s.keyD / 2 ^ (32 * i) % 2 ^ 32 else 0) ∧
        (∀ j : Reg, idx.toNat = 0x4000 + 0x400 * j.val + i →
          w.toNat = if i < s.cfg.W / 32 then s.x[j] / 2 ^ (32 * i) % 2 ^ 32 else 0)) ∧
    (∀ (j : Reg) (v : Word), s.pending = .write idx v :: rest → idx.toNat = 0x4000 + 0x400 * j.val + i →
      (i < s.cfg.W / 32 → ∃ n, step s = .next { s with pending := rest, x := s.x.set j n } ∧
        ∀ l, n / 2 ^ (32 * l) % 2 ^ 32 = if l = i then v.toNat else s.x[j] / 2 ^ (32 * l) % 2 ^ 32) ∧
      (s.cfg.W / 32 ≤ i → step s = .next { s with pending := rest }))

/-- 20_memory.md R44 and R45: a read of a reserved index returns 0; a write to a reserved index or to a read-only register,
the windows of N, E and D included, is ignored. -/
def Obligations.ReservedAndReadOnlyIndices : Prop :=
  ∀ (s : State) (idx : Index) (rest : List HostEvent),
    (s.pending = .read idx :: rest →
      ((8 ≤ idx.toNat ∧ idx.toNat < 0x2000) ∨ (0x2C00 ≤ idx.toNat ∧ idx.toNat < 0x4000) ∨ 0x6000 ≤ idx.toNat) →
      step s = .next { s with pending := rest, replies := 0 :: s.replies }) ∧
    (∀ v : Word, s.pending = .write idx v :: rest → idx.toNat ≠ 2 → ¬(0x4000 ≤ idx.toNat ∧ idx.toNat < 0x6000) →
      step s = .next { s with pending := rest })

/-- The line `set xj, v` of a host script (30_encoding.md R70): its `L` writes leave `v` in `xj`, whatever was there, and change
nothing else. -/
def Obligations.SetLineWritesTheRegister : Prop :=
  ∀ (s : State) (j : Reg) (v : Nat) (rest : List HostEvent), s.cfg.Valid → s.x[j] < 2 ^ s.cfg.W → v < 2 ^ s.cfg.W →
    s.pending = HostLine.expand s.cfg (.set j v) ++ rest →
    runSteps (s.cfg.W / 32) s = .next { s with pending := rest, x := s.x.set j v }

/-- The lines `get xj`, `getn`, `gete` and `getd` (30_encoding.md R70): the words of their `L` reads make up the register's
value, and no state changes. -/
def Obligations.GetLinesReadTheRegister : Prop :=
  ∀ (s : State) (line : HostLine) (v : Nat) (rest : List HostEvent), s.cfg.Valid → v < 2 ^ s.cfg.W →
    ((∃ j, line = .get j ∧ v = s.x[j]) ∨ (line = .getn ∧ v = s.keyN) ∨ (line = .gete ∧ v = s.keyE) ∨
      (line = .getd ∧ v = s.keyD)) →
    s.pending = HostLine.expand s.cfg line ++ rest →
    ∃ ws, ws.length = s.cfg.W / 32 ∧ valueOfReplies ws = v ∧
      runSteps (s.cfg.W / 32) s = .next { s with pending := rest, replies := ws ++ s.replies }

/-! ## Reset and the invariant -/

/-- 10_state.md R36: the reset value of every piece of state, on hardware with any parameters. -/
def Obligations.ResetValues : Prop :=
  ∀ c : Config, (State.resetOf c).engine = .uninitialized ∧
    (State.resetOf c).keyN = 0 ∧ (State.resetOf c).keyE = 0 ∧ (State.resetOf c).keyD = 0 ∧
    (∀ r : Reg, (State.resetOf c).x[r] = 0) ∧ (State.resetOf c).primeFlag = false ∧ (State.resetOf c).cmd = 0 ∧
    (State.resetOf c).err = 0 ∧ (State.resetOf c).errlog = 0 ∧
    portRead (State.resetOf c) 0x0000 = 0x52534131 ∧ portRead (State.resetOf c) 0x0003 = 0 ∧
    (c.Valid → (portRead (State.resetOf c) 0x0001).toNat = c.W ∧ (portRead (State.resetOf c) 0x0006).toNat = c.mrRounds ∧
      (portRead (State.resetOf c) 0x0007).toNat = c.tryLimit)

/-- 70_reset_and_hazards.md R150: reset gives every piece of state its reset value, from any state, as power-up does, and
consumes no draw; nothing else leads from `KeyGenerated` to `Uninitialized`. -/
def Obligations.ResetStartsANewInstance : Prop :=
  (∀ (s : State) (rest : List HostEvent), s.pending = .reset :: rest →
    step s = .next { s with
      x := Vector.replicate 8 0, keyN := 0, keyE := 0, keyD := 0, engine := .uninitialized, primeFlag := false, cmd := 0,
      err := 0, errlog := 0, pending := rest } ∧
    ∀ (t : State) (c : Config), step s = .next t → t.toArch = (State.resetOf c).toArch) ∧
  (∀ s t : State, step s = .next t → s.engine = .keyGenerated → t.engine = .uninitialized → ∃ rest, s.pending = .reset :: rest)

/-- The invariant holds after reset, for all legal parameters and for the ones `State.reset` carries. -/
def Obligations.InvHoldsAtReset : Prop :=
  (∀ c : Config, c.Valid → (State.resetOf c).Inv) ∧ State.reset.Inv

/-- Every step keeps the invariant: the registers fit (10_state.md R21, R22), the key registers are as R37 says (which the
spec derives), and ERR and ERRLOG hold codes the MAU raises (R30, R31). -/
def Obligations.EveryStepKeepsInv : Prop :=
  ∀ s t : State, s.Inv → step s = .next t → t.Inv

/-- From reset, under every host and every draw, a run takes one event a step, never stops, and keeps the invariant and the
parameters (00_scope.md R10, R11; 70_reset_and_hazards.md R158). -/
def Obligations.RunsNeverStop : Prop :=
  ∀ (c : Config) (evs : List HostEvent) (script : List Word) (n : Nat), c.Valid → (∀ ev ∈ evs, ev.InScope) →
    ∃ t, runSteps n (State.runStart c evs script) = .next t ∧ t.Inv ∧ t.cfg = c ∧ t.pending = evs.drop n

/-! ## The datapath of the informative section -/

/-- Barrett reduction with at most two subtractions is the remainder (40_modmul.md, informative section; from general
knowledge). -/
def Obligations.BarrettIsTheRemainder : Prop :=
  ∀ n x : Nat, 1 ≤ n → x < 2 ^ (2 * bitLen n) → barrett n x = x % n

/-- `REDC(T)` is `T * R^(-1) mod n` in `[0, n)` (40_modmul.md, informative section; from general knowledge). -/
def Obligations.RedcDividesByR : Prop :=
  ∀ n r T : Nat, 3 ≤ n → n % 2 = 1 → n < 2 ^ r → T < 2 ^ r * n →
    redc n r T < n ∧ redc n r T * 2 ^ r % n = T % n

/-- A datapath of Montgomery for odd moduli and Barrett for the others computes the product of MODMUL for every modulus
(40_modmul.md, informative section and R82; from general knowledge). No command calls it (log entry 12). -/
def Obligations.DatapathComputesModmul : Prop :=
  ∀ width n a b : Nat, 1 ≤ n → n < 2 ^ width → datapathMul width n a b = a * b % n
end

