-- ==== Sys2Proof/Laws/State.lean ====
section
/-! SUPPORT. One lemma for each field of State under each named update, so that no proof unfolds a record update; and the reads
of operand registers after a write. -/

namespace Sys2Proof.Machine

open Sys2Proof

@[simp] theorem State.writeX_x (s : State) (r : Reg) (v : Nat) : (s.writeX r v).x = s.x.set r v := rfl
@[simp] theorem State.writeX_keyN (s : State) (r : Reg) (v : Nat) : (s.writeX r v).keyN = s.keyN := rfl
@[simp] theorem State.writeX_keyE (s : State) (r : Reg) (v : Nat) : (s.writeX r v).keyE = s.keyE := rfl
@[simp] theorem State.writeX_keyD (s : State) (r : Reg) (v : Nat) : (s.writeX r v).keyD = s.keyD := rfl
@[simp] theorem State.writeX_engine (s : State) (r : Reg) (v : Nat) : (s.writeX r v).engine = s.engine := rfl
@[simp] theorem State.writeX_primeFlag (s : State) (r : Reg) (v : Nat) : (s.writeX r v).primeFlag = s.primeFlag := rfl
@[simp] theorem State.writeX_cmd (s : State) (r : Reg) (v : Nat) : (s.writeX r v).cmd = s.cmd := rfl
@[simp] theorem State.writeX_err (s : State) (r : Reg) (v : Nat) : (s.writeX r v).err = s.err := rfl
@[simp] theorem State.writeX_errlog (s : State) (r : Reg) (v : Nat) : (s.writeX r v).errlog = s.errlog := rfl
@[simp] theorem State.writeX_cfg (s : State) (r : Reg) (v : Nat) : (s.writeX r v).cfg = s.cfg := rfl
@[simp] theorem State.writeX_entropy (s : State) (r : Reg) (v : Nat) : (s.writeX r v).entropy = s.entropy := rfl
@[simp] theorem State.writeX_pending (s : State) (r : Reg) (v : Nat) : (s.writeX r v).pending = s.pending := rfl
@[simp] theorem State.writeX_replies (s : State) (r : Reg) (v : Nat) : (s.writeX r v).replies = s.replies := rfl

@[simp] theorem State.setCmd_x (s : State) (v : Word) : (s.setCmd v).x = s.x := rfl
@[simp] theorem State.setCmd_keyN (s : State) (v : Word) : (s.setCmd v).keyN = s.keyN := rfl
@[simp] theorem State.setCmd_keyE (s : State) (v : Word) : (s.setCmd v).keyE = s.keyE := rfl
@[simp] theorem State.setCmd_keyD (s : State) (v : Word) : (s.setCmd v).keyD = s.keyD := rfl
@[simp] theorem State.setCmd_engine (s : State) (v : Word) : (s.setCmd v).engine = s.engine := rfl
@[simp] theorem State.setCmd_primeFlag (s : State) (v : Word) : (s.setCmd v).primeFlag = s.primeFlag := rfl
@[simp] theorem State.setCmd_cmd (s : State) (v : Word) : (s.setCmd v).cmd = v := rfl
@[simp] theorem State.setCmd_err (s : State) (v : Word) : (s.setCmd v).err = s.err := rfl
@[simp] theorem State.setCmd_errlog (s : State) (v : Word) : (s.setCmd v).errlog = s.errlog := rfl
@[simp] theorem State.setCmd_cfg (s : State) (v : Word) : (s.setCmd v).cfg = s.cfg := rfl
@[simp] theorem State.setCmd_entropy (s : State) (v : Word) : (s.setCmd v).entropy = s.entropy := rfl
@[simp] theorem State.setCmd_pending (s : State) (v : Word) : (s.setCmd v).pending = s.pending := rfl
@[simp] theorem State.setCmd_replies (s : State) (v : Word) : (s.setCmd v).replies = s.replies := rfl

@[simp] theorem State.setPrime_x (s : State) (v : Bool) (ent : Entropy) : (s.setPrime v ent).x = s.x := rfl
@[simp] theorem State.setPrime_keyN (s : State) (v : Bool) (ent : Entropy) : (s.setPrime v ent).keyN = s.keyN := rfl
@[simp] theorem State.setPrime_keyE (s : State) (v : Bool) (ent : Entropy) : (s.setPrime v ent).keyE = s.keyE := rfl
@[simp] theorem State.setPrime_keyD (s : State) (v : Bool) (ent : Entropy) : (s.setPrime v ent).keyD = s.keyD := rfl
@[simp] theorem State.setPrime_engine (s : State) (v : Bool) (ent : Entropy) : (s.setPrime v ent).engine = s.engine := rfl
@[simp] theorem State.setPrime_primeFlag (s : State) (v : Bool) (ent : Entropy) : (s.setPrime v ent).primeFlag = v := rfl
@[simp] theorem State.setPrime_cmd (s : State) (v : Bool) (ent : Entropy) : (s.setPrime v ent).cmd = s.cmd := rfl
@[simp] theorem State.setPrime_err (s : State) (v : Bool) (ent : Entropy) : (s.setPrime v ent).err = s.err := rfl
@[simp] theorem State.setPrime_errlog (s : State) (v : Bool) (ent : Entropy) : (s.setPrime v ent).errlog = s.errlog := rfl
@[simp] theorem State.setPrime_cfg (s : State) (v : Bool) (ent : Entropy) : (s.setPrime v ent).cfg = s.cfg := rfl
@[simp] theorem State.setPrime_entropy (s : State) (v : Bool) (ent : Entropy) : (s.setPrime v ent).entropy = ent := rfl
@[simp] theorem State.setPrime_pending (s : State) (v : Bool) (ent : Entropy) : (s.setPrime v ent).pending = s.pending := rfl
@[simp] theorem State.setPrime_replies (s : State) (v : Bool) (ent : Entropy) : (s.setPrime v ent).replies = s.replies := rfl

@[simp] theorem State.setKey_x (s : State) (n e d : Nat) (ent : Entropy) : (s.setKey n e d ent).x = s.x := rfl
@[simp] theorem State.setKey_keyN (s : State) (n e d : Nat) (ent : Entropy) : (s.setKey n e d ent).keyN = n := rfl
@[simp] theorem State.setKey_keyE (s : State) (n e d : Nat) (ent : Entropy) : (s.setKey n e d ent).keyE = e := rfl
@[simp] theorem State.setKey_keyD (s : State) (n e d : Nat) (ent : Entropy) : (s.setKey n e d ent).keyD = d := rfl
@[simp] theorem State.setKey_engine (s : State) (n e d : Nat) (ent : Entropy) : (s.setKey n e d ent).engine = .keyGenerated := rfl
@[simp] theorem State.setKey_primeFlag (s : State) (n e d : Nat) (ent : Entropy) : (s.setKey n e d ent).primeFlag = s.primeFlag := rfl
@[simp] theorem State.setKey_cmd (s : State) (n e d : Nat) (ent : Entropy) : (s.setKey n e d ent).cmd = s.cmd := rfl
@[simp] theorem State.setKey_err (s : State) (n e d : Nat) (ent : Entropy) : (s.setKey n e d ent).err = s.err := rfl
@[simp] theorem State.setKey_errlog (s : State) (n e d : Nat) (ent : Entropy) : (s.setKey n e d ent).errlog = s.errlog := rfl
@[simp] theorem State.setKey_cfg (s : State) (n e d : Nat) (ent : Entropy) : (s.setKey n e d ent).cfg = s.cfg := rfl
@[simp] theorem State.setKey_entropy (s : State) (n e d : Nat) (ent : Entropy) : (s.setKey n e d ent).entropy = ent := rfl
@[simp] theorem State.setKey_pending (s : State) (n e d : Nat) (ent : Entropy) : (s.setKey n e d ent).pending = s.pending := rfl
@[simp] theorem State.setKey_replies (s : State) (n e d : Nat) (ent : Entropy) : (s.setKey n e d ent).replies = s.replies := rfl

@[simp] theorem State.setEntropy_x (s : State) (ent : Entropy) : (s.setEntropy ent).x = s.x := rfl
@[simp] theorem State.setEntropy_keyN (s : State) (ent : Entropy) : (s.setEntropy ent).keyN = s.keyN := rfl
@[simp] theorem State.setEntropy_keyE (s : State) (ent : Entropy) : (s.setEntropy ent).keyE = s.keyE := rfl
@[simp] theorem State.setEntropy_keyD (s : State) (ent : Entropy) : (s.setEntropy ent).keyD = s.keyD := rfl
@[simp] theorem State.setEntropy_engine (s : State) (ent : Entropy) : (s.setEntropy ent).engine = s.engine := rfl
@[simp] theorem State.setEntropy_primeFlag (s : State) (ent : Entropy) : (s.setEntropy ent).primeFlag = s.primeFlag := rfl
@[simp] theorem State.setEntropy_cmd (s : State) (ent : Entropy) : (s.setEntropy ent).cmd = s.cmd := rfl
@[simp] theorem State.setEntropy_err (s : State) (ent : Entropy) : (s.setEntropy ent).err = s.err := rfl
@[simp] theorem State.setEntropy_errlog (s : State) (ent : Entropy) : (s.setEntropy ent).errlog = s.errlog := rfl
@[simp] theorem State.setEntropy_cfg (s : State) (ent : Entropy) : (s.setEntropy ent).cfg = s.cfg := rfl
@[simp] theorem State.setEntropy_entropy (s : State) (ent : Entropy) : (s.setEntropy ent).entropy = ent := rfl
@[simp] theorem State.setEntropy_pending (s : State) (ent : Entropy) : (s.setEntropy ent).pending = s.pending := rfl
@[simp] theorem State.setEntropy_replies (s : State) (ent : Entropy) : (s.setEntropy ent).replies = s.replies := rfl

@[simp] theorem State.setPending_x (s : State) (evs : List HostEvent) : (s.setPending evs).x = s.x := rfl
@[simp] theorem State.setPending_keyN (s : State) (evs : List HostEvent) : (s.setPending evs).keyN = s.keyN := rfl
@[simp] theorem State.setPending_keyE (s : State) (evs : List HostEvent) : (s.setPending evs).keyE = s.keyE := rfl
@[simp] theorem State.setPending_keyD (s : State) (evs : List HostEvent) : (s.setPending evs).keyD = s.keyD := rfl
@[simp] theorem State.setPending_engine (s : State) (evs : List HostEvent) : (s.setPending evs).engine = s.engine := rfl
@[simp] theorem State.setPending_primeFlag (s : State) (evs : List HostEvent) : (s.setPending evs).primeFlag = s.primeFlag := rfl
@[simp] theorem State.setPending_cmd (s : State) (evs : List HostEvent) : (s.setPending evs).cmd = s.cmd := rfl
@[simp] theorem State.setPending_err (s : State) (evs : List HostEvent) : (s.setPending evs).err = s.err := rfl
@[simp] theorem State.setPending_errlog (s : State) (evs : List HostEvent) : (s.setPending evs).errlog = s.errlog := rfl
@[simp] theorem State.setPending_cfg (s : State) (evs : List HostEvent) : (s.setPending evs).cfg = s.cfg := rfl
@[simp] theorem State.setPending_entropy (s : State) (evs : List HostEvent) : (s.setPending evs).entropy = s.entropy := rfl
@[simp] theorem State.setPending_pending (s : State) (evs : List HostEvent) : (s.setPending evs).pending = evs := rfl
@[simp] theorem State.setPending_replies (s : State) (evs : List HostEvent) : (s.setPending evs).replies = s.replies := rfl

@[simp] theorem State.pushReply_x (s : State) (w : Word) : (s.pushReply w).x = s.x := rfl
@[simp] theorem State.pushReply_keyN (s : State) (w : Word) : (s.pushReply w).keyN = s.keyN := rfl
@[simp] theorem State.pushReply_keyE (s : State) (w : Word) : (s.pushReply w).keyE = s.keyE := rfl
@[simp] theorem State.pushReply_keyD (s : State) (w : Word) : (s.pushReply w).keyD = s.keyD := rfl
@[simp] theorem State.pushReply_engine (s : State) (w : Word) : (s.pushReply w).engine = s.engine := rfl
@[simp] theorem State.pushReply_primeFlag (s : State) (w : Word) : (s.pushReply w).primeFlag = s.primeFlag := rfl
@[simp] theorem State.pushReply_cmd (s : State) (w : Word) : (s.pushReply w).cmd = s.cmd := rfl
@[simp] theorem State.pushReply_err (s : State) (w : Word) : (s.pushReply w).err = s.err := rfl
@[simp] theorem State.pushReply_errlog (s : State) (w : Word) : (s.pushReply w).errlog = s.errlog := rfl
@[simp] theorem State.pushReply_cfg (s : State) (w : Word) : (s.pushReply w).cfg = s.cfg := rfl
@[simp] theorem State.pushReply_entropy (s : State) (w : Word) : (s.pushReply w).entropy = s.entropy := rfl
@[simp] theorem State.pushReply_pending (s : State) (w : Word) : (s.pushReply w).pending = s.pending := rfl
@[simp] theorem State.pushReply_replies (s : State) (w : Word) : (s.pushReply w).replies = w :: s.replies := rfl

@[simp] theorem State.resetMau_x (s : State) : (s.resetMau).x = Vector.replicate 8 0 := rfl
@[simp] theorem State.resetMau_keyN (s : State) : (s.resetMau).keyN = 0 := rfl
@[simp] theorem State.resetMau_keyE (s : State) : (s.resetMau).keyE = 0 := rfl
@[simp] theorem State.resetMau_keyD (s : State) : (s.resetMau).keyD = 0 := rfl
@[simp] theorem State.resetMau_engine (s : State) : (s.resetMau).engine = .uninitialized := rfl
@[simp] theorem State.resetMau_primeFlag (s : State) : (s.resetMau).primeFlag = false := rfl
@[simp] theorem State.resetMau_cmd (s : State) : (s.resetMau).cmd = 0 := rfl
@[simp] theorem State.resetMau_err (s : State) : (s.resetMau).err = 0 := rfl
@[simp] theorem State.resetMau_errlog (s : State) : (s.resetMau).errlog = 0 := rfl
@[simp] theorem State.resetMau_cfg (s : State) : (s.resetMau).cfg = s.cfg := rfl
@[simp] theorem State.resetMau_entropy (s : State) : (s.resetMau).entropy = s.entropy := rfl
@[simp] theorem State.resetMau_pending (s : State) : (s.resetMau).pending = s.pending := rfl
@[simp] theorem State.resetMau_replies (s : State) : (s.resetMau).replies = s.replies := rfl

@[simp] theorem State.raiseError_x (s : State) (k : ErrorKind) : (s.raiseError k).x = s.x := rfl
@[simp] theorem State.raiseError_keyN (s : State) (k : ErrorKind) : (s.raiseError k).keyN = s.keyN := rfl
@[simp] theorem State.raiseError_keyE (s : State) (k : ErrorKind) : (s.raiseError k).keyE = s.keyE := rfl
@[simp] theorem State.raiseError_keyD (s : State) (k : ErrorKind) : (s.raiseError k).keyD = s.keyD := rfl
@[simp] theorem State.raiseError_engine (s : State) (k : ErrorKind) : (s.raiseError k).engine = s.engine := rfl
@[simp] theorem State.raiseError_primeFlag (s : State) (k : ErrorKind) : (s.raiseError k).primeFlag = s.primeFlag := rfl
@[simp] theorem State.raiseError_cmd (s : State) (k : ErrorKind) : (s.raiseError k).cmd = s.cmd := rfl
@[simp] theorem State.raiseError_err (s : State) (k : ErrorKind) : (s.raiseError k).err = BitVec.ofNat 8 k.code := rfl
@[simp] theorem State.raiseError_errlog (s : State) (k : ErrorKind) : (s.raiseError k).errlog = s.errlog ||| k.bit := rfl
@[simp] theorem State.raiseError_cfg (s : State) (k : ErrorKind) : (s.raiseError k).cfg = s.cfg := rfl
@[simp] theorem State.raiseError_entropy (s : State) (k : ErrorKind) : (s.raiseError k).entropy = s.entropy := rfl
@[simp] theorem State.raiseError_pending (s : State) (k : ErrorKind) : (s.raiseError k).pending = s.pending := rfl
@[simp] theorem State.raiseError_replies (s : State) (k : ErrorKind) : (s.raiseError k).replies = s.replies := rfl

@[simp] theorem State.succeed_x (s : State) : (s.succeed).x = s.x := rfl
@[simp] theorem State.succeed_keyN (s : State) : (s.succeed).keyN = s.keyN := rfl
@[simp] theorem State.succeed_keyE (s : State) : (s.succeed).keyE = s.keyE := rfl
@[simp] theorem State.succeed_keyD (s : State) : (s.succeed).keyD = s.keyD := rfl
@[simp] theorem State.succeed_engine (s : State) : (s.succeed).engine = s.engine := rfl
@[simp] theorem State.succeed_primeFlag (s : State) : (s.succeed).primeFlag = s.primeFlag := rfl
@[simp] theorem State.succeed_cmd (s : State) : (s.succeed).cmd = s.cmd := rfl
@[simp] theorem State.succeed_err (s : State) : (s.succeed).err = 0 := rfl
@[simp] theorem State.succeed_errlog (s : State) : (s.succeed).errlog = s.errlog := rfl
@[simp] theorem State.succeed_cfg (s : State) : (s.succeed).cfg = s.cfg := rfl
@[simp] theorem State.succeed_entropy (s : State) : (s.succeed).entropy = s.entropy := rfl
@[simp] theorem State.succeed_pending (s : State) : (s.succeed).pending = s.pending := rfl
@[simp] theorem State.succeed_replies (s : State) : (s.succeed).replies = s.replies := rfl

theorem State.readX_eq (s : State) (r : Reg) : s.readX r = s.x[r] := rfl

@[simp] theorem State.readX_writeX_same (s : State) (r : Reg) (v : Nat) : (s.writeX r v).readX r = v := by
  simp [State.readX]

theorem State.readX_writeX_ne (s : State) {r q : Reg} (v : Nat) (h : q ≠ r) : (s.writeX r v).readX q = s.readX q := by
  have hv : r.val ≠ q.val := fun e => h (Fin.ext e.symm)
  simp [State.readX, hv]

theorem State.readX_writeX (s : State) (r q : Reg) (v : Nat) :
    (s.writeX r v).readX q = if q = r then v else s.readX q := by
  split
  · next h => rw [h, State.readX_writeX_same]
  · next h => exact State.readX_writeX_ne s v h

@[simp] theorem State.setCmd_readX (s : State) (v : Word) (q : Reg) : (s.setCmd v).readX q = s.readX q := rfl
@[simp] theorem State.setPrime_readX (s : State) (v : Bool) (ent : Entropy) (q : Reg) : (s.setPrime v ent).readX q = s.readX q := rfl
@[simp] theorem State.setKey_readX (s : State) (n e d : Nat) (ent : Entropy) (q : Reg) : (s.setKey n e d ent).readX q = s.readX q := rfl
@[simp] theorem State.setEntropy_readX (s : State) (ent : Entropy) (q : Reg) : (s.setEntropy ent).readX q = s.readX q := rfl
@[simp] theorem State.setPending_readX (s : State) (evs : List HostEvent) (q : Reg) : (s.setPending evs).readX q = s.readX q := rfl
@[simp] theorem State.pushReply_readX (s : State) (w : Word) (q : Reg) : (s.pushReply w).readX q = s.readX q := rfl
@[simp] theorem State.resetMau_readX (s : State) (q : Reg) : s.resetMau.readX q = 0 := by
  simp [State.readX]
@[simp] theorem State.raiseError_readX (s : State) (k : ErrorKind) (q : Reg) : (s.raiseError k).readX q = s.readX q := rfl
@[simp] theorem State.succeed_readX (s : State) (q : Reg) : (s.succeed).readX q = s.readX q := rfl

end Sys2Proof.Machine
end

