-- ==== Sys2Proof/Laws/Ops.lean ====
section
/-! SUPPORT. What the shared operations do: draws (00_scope.md R8), bit length (R6), and the end of a command
(60_exceptions.md R131). -/

namespace Sys2Proof.Machine

open Sys2Proof

/-! ## Draws -/

@[simp] theorem Entropy.draw_taken (e : Entropy) : e.draw.2.taken = e.taken + 1 := by
  unfold Entropy.draw
  split <;> rfl

@[simp] theorem Entropy.draw_cons (w : Word) (ws : List Word) (n : Nat) :
    Entropy.draw ⟨w :: ws, n⟩ = (w, ⟨ws, n + 1⟩) := rfl

@[simp] theorem drawLimbs_taken (j : Nat) (e : Entropy) : (drawLimbs j e).2.taken = e.taken + j := by
  induction j generalizing e with
  | zero => rfl
  | succ j ih => simp only [drawLimbs, ih, Entropy.draw_taken]; omega

@[simp] theorem drawBits_taken (k : Nat) (e : Entropy) : (drawBits k e).2.taken = e.taken + (k + 31) / 32 := by
  simp [drawBits]

theorem drawBits_lt (k : Nat) (e : Entropy) : (drawBits k e).1 < 2 ^ k :=
  Nat.mod_lt _ (by positivity)

/-! ## Bit length -/

theorem lt_two_pow_bitLen (v : Nat) : v < 2 ^ bitLen v := by
  unfold bitLen
  split
  · next h => simp [h]
  · exact Nat.lt_log2_self

theorem two_pow_bitLen_le {v : Nat} (h : v ≠ 0) : 2 ^ (bitLen v - 1) ≤ v := by
  simp only [bitLen, h, if_false, Nat.add_sub_cancel]
  exact Nat.log2_self_le h

theorem bitLen_pos {v : Nat} (h : v ≠ 0) : 0 < bitLen v := by
  simp [bitLen, h]

/-! ## The end of a command -/

/-- A command always ends in a next state (70_reset_and_hazards.md R158). -/
theorem finishCommand_next (s : State) (b : BodyEnd) : ∃ t, finishCommand s b = .next t := by
  cases b <;> exact ⟨_, rfl⟩

/-- Everything the end of a command can do: the body's state with ERR 0, or the start's state with the error reported and
the draws gone. -/
theorem finishCommand_cases {s t : State} {b : BodyEnd} (h : finishCommand s b = .next t) :
    (∃ u, b = .completes u ∧ t = u.succeed) ∨
    (∃ k ent, b = .raises k ent ∧ t = (s.setEntropy ent).raiseError k) := by
  cases b with
  | completes u => exact .inl ⟨u, rfl, by simpa [finishCommand] using h.symm⟩
  | raises k ent => exact .inr ⟨k, ent, rfl, by simpa [finishCommand] using h.symm⟩

theorem ErrorKind.code_range (k : ErrorKind) : 1 ≤ k.code ∧ k.code ≤ 9 := by
  cases k <;> decide

end Sys2Proof.Machine
end

