-- ==== Sys2Proof/Laws/Arith.lean ====
section
/-! SUPPORT. What the arithmetic functions compute: square-and-multiply is the power modulo (41_modexp.md R90, R92), and the
Euclidean loop is the inverse or none (42_modinv.md R100, R102). -/

namespace Sys2Proof.Machine

open Sys2Proof

/-! ## Powers -/

theorem modPowPass_eq (b e n i : Nat) :
    modPowPass (b % n) e n i (b ^ (e / 2 ^ (i + 1)) % n) = b ^ (e / 2 ^ i) % n := by
  have hsq : b ^ (e / 2 ^ (i + 1)) % n * (b ^ (e / 2 ^ (i + 1)) % n) % n = b ^ (2 * (e / 2 ^ (i + 1))) % n := by
    rw [← Nat.mul_mod, ← Nat.pow_add, two_mul]
  have hdiv : e / 2 ^ (i + 1) = e / 2 ^ i / 2 := by rw [Nat.pow_succ, Nat.div_div_eq_div_mul]
  have hbit : e.testBit i = decide (e / 2 ^ i % 2 = 1) := Nat.testBit_eq_decide_div_mod_eq
  unfold modPowPass
  simp only [hsq, hbit, decide_eq_true_eq]
  rw [hdiv]
  have hm := Nat.div_add_mod (e / 2 ^ i) 2
  split
  · next h1 =>
    rw [← Nat.mul_mod, ← Nat.pow_succ]
    congr 2
    omega
  · next h1 =>
    congr 2
    omega

theorem modPowLoop_eq (b e n k : Nat) :
    modPowLoop (b % n) e n k (b ^ (e / 2 ^ k) % n) = b ^ e % n := by
  induction k with
  | zero => simp [modPowLoop]
  | succ i ih => rw [modPowLoop, modPowPass_eq, ih]

/-- `ModPowRef(b, e, n)` is `(b ^ e) mod n` (41_modexp.md R90, R92), for `n = 0` too with `v % 0 = v`. -/
theorem modPow_eq (b e n : Nat) : modPow b e n = b ^ e % n := by
  have h : e / 2 ^ bitLen e = 0 := Nat.div_eq_of_lt (lt_two_pow_bitLen e)
  have hl := modPowLoop_eq b e n (bitLen e)
  rw [h, Nat.pow_zero] at hl
  exact hl

/-! ## Inverses -/

/-- The loop keeps `t * a ≡ r` for both pairs and the greatest common divisor (42_modinv.md R102). -/
theorem euclidLoop_spec (a m : Nat) : ∀ (bound r0 r1 : Nat) (t0 t1 : Int), r1 < bound →
    (m : Int) ∣ t0 * a - r0 → (m : Int) ∣ t1 * a - r1 →
    (euclidLoop bound r0 r1 t0 t1).1 = Nat.gcd r0 r1 ∧
    (m : Int) ∣ (euclidLoop bound r0 r1 t0 t1).2 * a - (euclidLoop bound r0 r1 t0 t1).1 := by
  intro bound
  induction bound with
  | zero => intro r0 r1 t0 t1 hb; omega
  | succ bound ih =>
    intro r0 r1 t0 t1 hb h0 h1
    unfold euclidLoop
    by_cases hr : r1 = 0
    · simp only [hr, if_true, Nat.gcd_zero_right]
      exact ⟨trivial, h0⟩
    · simp only [hr, if_false]
      have hmod : r0 - r0 / r1 * r1 = r0 % r1 := by
        have := Nat.div_add_mod r0 r1
        rw [Nat.mul_comm] at this
        omega
      have hlt : r0 % r1 < r1 := Nat.mod_lt _ (Nat.pos_of_ne_zero hr)
      rw [hmod]
      have hnext : (m : Int) ∣ (t0 - (r0 / r1 : Nat) * t1) * a - (r0 % r1 : Nat) := by
        have hd : (r0 : Int) = (r1 : Int) * ((r0 / r1 : Nat) : Int) + ((r0 % r1 : Nat) : Int) := by
          exact_mod_cast (Nat.div_add_mod r0 r1).symm
        have : (t0 - (r0 / r1 : Nat) * t1) * a - (r0 % r1 : Nat)
            = (t0 * a - r0) - (r0 / r1 : Nat) * (t1 * a - r1) := by rw [hd]; ring
        rw [this]
        exact dvd_sub h0 (Dvd.dvd.mul_left h1 _)
      have hi := ih r1 (r0 % r1) t1 (t0 - (r0 / r1 : Nat) * t1) (by omega) h1 hnext
      refine ⟨?_, hi.2⟩
      rw [hi.1, Nat.gcd_comm r1, ← Nat.gcd_rec, Nat.gcd_comm]

theorem euclidLoop_start {a m : Nat} :
    (euclidLoop (a % m + 1) m (a % m) 0 1).1 = Nat.gcd a m ∧
    (m : Int) ∣ (euclidLoop (a % m + 1) m (a % m) 0 1).2 * (a % m : Nat) - (euclidLoop (a % m + 1) m (a % m) 0 1).1 := by
  have h := euclidLoop_spec (a % m) m (a % m + 1) m (a % m) 0 1 (by omega) (by simp) (by simp)
  refine ⟨?_, h.2⟩
  rw [h.1, Nat.gcd_comm, ← Nat.gcd_rec, Nat.gcd_comm]

/-- `ModInv` answers an inverse in `[0, m)` (42_modinv.md R100). -/
theorem modInv_some {a m d : Nat} (hm : 1 ≤ m) (h : modInv a m = some d) :
    Nat.gcd a m = 1 ∧ d < m ∧ a * d % m = 1 % m := by
  unfold modInv at h
  obtain ⟨hg, hd⟩ := euclidLoop_start (a := a) (m := m)
  simp only [hg] at h
  split at h
  · next h1 =>
    have hdv := Option.some.inj h
    have hmpos : (0 : Int) < m := by exact_mod_cast hm
    have hnn := Int.emod_nonneg (euclidLoop (a % m + 1) m (a % m) 0 1).2 (ne_of_gt hmpos)
    have hlt := Int.emod_lt_of_pos (euclidLoop (a % m + 1) m (a % m) 0 1).2 hmpos
    rw [hg, h1] at hd
    refine ⟨h1, by omega, ?_⟩
    have hcast : (d : Int) = (euclidLoop (a % m + 1) m (a % m) 0 1).2 % m := by
      rw [← hdv, Int.toNat_of_nonneg hnn]
    have hmodeq : ((a * d : Nat) : Int) ≡ ((1 : Nat) : Int) [ZMOD m] := by
      have e1 : (euclidLoop (a % m + 1) m (a % m) 0 1).2 * (a % m : Nat) ≡ ((1 : Nat) : Int) [ZMOD m] :=
        (Int.modEq_iff_dvd.mpr (by simpa using hd)).symm
      have e2 : (d : Int) ≡ (euclidLoop (a % m + 1) m (a % m) 0 1).2 [ZMOD m] := by
        rw [hcast]; exact Int.mod_modEq _ _
      have e3 : ((a % m : Nat) : Int) ≡ (a : Int) [ZMOD m] := by
        push_cast; exact Int.mod_modEq _ _
      calc ((a * d : Nat) : Int) = (d : Int) * a := by push_cast; ring
        _ ≡ (euclidLoop (a % m + 1) m (a % m) 0 1).2 * (a % m : Nat) [ZMOD m] := e2.mul e3.symm
        _ ≡ ((1 : Nat) : Int) [ZMOD m] := e1
    exact (Int.natCast_modEq_iff.mp hmodeq)
  · simp at h

/-- `ModInv` answers none exactly when the greatest common divisor is not 1 (42_modinv.md R100). -/
theorem modInv_eq_none_iff (a m : Nat) : modInv a m = none ↔ Nat.gcd a m ≠ 1 := by
  unfold modInv
  obtain ⟨hg, -⟩ := euclidLoop_start (a := a) (m := m)
  simp [hg]

/-- The inverse in `[0, m)` is unique. -/
theorem inverse_unique {a m d d' : Nat} (hg : Nat.gcd a m = 1) (hd : d < m) (hd' : d' < m)
    (h : a * d % m = 1 % m) (h' : a * d' % m = 1 % m) : d' = d := by
  have he : a * d' ≡ a * d [MOD m] := by rw [Nat.ModEq, h, h']
  have hc : d' ≡ d [MOD m] := Nat.ModEq.cancel_left_of_coprime (by rwa [Nat.gcd_comm] at hg) he
  rwa [Nat.ModEq, Nat.mod_eq_of_lt hd, Nat.mod_eq_of_lt hd'] at hc

end Sys2Proof.Machine
end

