-- ==== Sys2Proof/Laws/Decode.lean ====
section
/-! SUPPORT. The fields of a word and the word of the fields (30_encoding.md R61), and register specifiers (R63). -/

namespace Sys2Proof

theorem fieldsOf_word (f : Fields) : fieldsOf f.word = f := by
  obtain ⟨op, rd, ra, rb, rm, imm8⟩ := f
  simp only [fieldsOf, Fields.word, Fields.mk.injEq]
  refine ⟨?_, ?_, ?_, ?_, ?_, ?_⟩ <;> apply BitVec.eq_of_getLsbD_eq <;> intro i hi <;>
    simp only [BitVec.getLsbD_extractLsb', BitVec.getLsbD_append, hi, decide_true, Bool.true_and] <;>
    split_ifs <;> first | omega | (congr 1; omega)

theorem word_fieldsOf (cw : Word) : (fieldsOf cw).word = cw := by
  simp only [fieldsOf, Fields.word]
  apply BitVec.eq_of_getLsbD_eq
  intro i hi
  simp only [BitVec.getLsbD_extractLsb', BitVec.getLsbD_append]
  split_ifs <;> (rw [decide_eq_true (by omega), Bool.true_and]; congr 1; omega)

@[simp] theorem regOf_specOf (r : Reg) : regOf (specOf r) = r := by
  revert r; decide

@[simp] theorem isReg_specOf (r : Reg) : isReg (specOf r) = true := by
  revert r; decide

theorem specOf_regOf {f : BitVec 4} (h : isReg f = true) : specOf (regOf f) = f := by
  revert f; decide

theorem namesReg_eq_isReg (f : BitVec 4) : Fields.namesReg f = isReg f := by
  revert f; decide

end Sys2Proof
end

