-- ==== Sys2Proof/Laws/PerInstr.lean ====
section
/-! SUPPORT. Statements about every instruction as syntax, one lemma for each constructor. -/

namespace Sys2Proof.Laws.FieldsFit

open Sys2Proof

/-- The fields of the instruction's word are the ones it was encoded with, and they are well formed: the operands of an `Instr`
leave no ill-formed command (30_encoding.md R62, R63, R66). -/
def Statement (i : Instr) : Prop := fieldsOf (encode i) = i.fields ∧ i.fields.wellFormed = true

theorem namesReg_specOf (r : Reg) : Fields.namesReg (specOf r) = true := by
  revert r; decide

theorem modred (rd ra rm : Reg) : Statement (.modred rd ra rm) :=
  ⟨fieldsOf_word _, by
    show Fields.fits _ .M3 = true
    simp [Instr.fields, Fields.fits, namesReg_specOf]⟩

theorem modmul (rd ra rb rm : Reg) : Statement (.modmul rd ra rb rm) :=
  ⟨fieldsOf_word _, by
    show Fields.fits _ .M4 = true
    simp [Instr.fields, Fields.fits, namesReg_specOf]⟩

theorem modexp (rd ra rb rm : Reg) : Statement (.modexp rd ra rb rm) :=
  ⟨fieldsOf_word _, by
    show Fields.fits _ .M4 = true
    simp [Instr.fields, Fields.fits, namesReg_specOf]⟩

theorem modinv (rd ra rm : Reg) : Statement (.modinv rd ra rm) :=
  ⟨fieldsOf_word _, by
    show Fields.fits _ .M3 = true
    simp [Instr.fields, Fields.fits, namesReg_specOf]⟩

theorem primetest (ra : Reg) : Statement (.primetest ra) :=
  ⟨fieldsOf_word _, by
    show Fields.fits _ .M1 = true
    simp [Instr.fields, Fields.fits, namesReg_specOf]⟩

theorem generate (bits : BitVec 16) : Statement (.generate bits) :=
  ⟨fieldsOf_word _, rfl⟩

theorem encrypt (rd : Reg) (imm8 : BitVec 8) : Statement (.encrypt rd imm8) :=
  ⟨fieldsOf_word _, by
    show Fields.fits _ .I = true
    simp [Instr.fields, Fields.fits, namesReg_specOf]⟩

theorem decrypt (rd ra : Reg) : Statement (.decrypt rd ra) :=
  ⟨fieldsOf_word _, by
    show Fields.fits _ .M2 = true
    simp [Instr.fields, Fields.fits, namesReg_specOf]⟩

end Sys2Proof.Laws.FieldsFit
end

