-- ==== Sys2Proof/Laws/Port.lean ====
section
/-! SUPPORT. Limbs of a big-integer register (20_memory.md R43) and the register map (R42). -/

namespace Sys2Proof.Machine

open Sys2Proof

/-! ## Limbs -/

theorem limb_toNat (v i : Nat) : (limb v i).toNat = v / 2 ^ (32 * i) % 2 ^ 32 := by
  simp [limb]

/-- A limb write keeps what is above and below and puts `w` between. -/
theorem setLimb_eq (v i : Nat) (w : Word) :
    setLimb v i w =
      2 ^ (32 * i) * (2 ^ 32 * (v / 2 ^ (32 * i) / 2 ^ 32) + w.toNat) + v % 2 ^ (32 * i) := by
  have h1 := Nat.div_add_mod v (2 ^ (32 * i))
  have h2 := Nat.div_add_mod (v / 2 ^ (32 * i)) (2 ^ 32)
  unfold setLimb
  rw [limb_toNat]
  generalize hP : 2 ^ (32 * i) = P at *
  generalize hA : v / P / 2 ^ 32 = A at *
  generalize hB : v / P % 2 ^ 32 = B at *
  generalize hR : v % P = R at *
  have : v = P * (2 ^ 32 * A) + P * B + R := by rw [← h1, ← h2]; ring
  rw [this, mul_comm B P, mul_comm w.toNat P]
  have : P * (2 ^ 32 * A) + P * B + R - P * B = P * (2 ^ 32 * A) + R := by omega
  rw [this]; ring

theorem setLimb_div (v i : Nat) (w : Word) :
    setLimb v i w / 2 ^ (32 * i) = 2 ^ 32 * (v / 2 ^ (32 * i) / 2 ^ 32) + w.toNat := by
  rw [setLimb_eq, Nat.mul_add_div (by positivity), Nat.div_eq_of_lt (Nat.mod_lt _ (by positivity)), Nat.add_zero]

theorem setLimb_mod (v i : Nat) (w : Word) : setLimb v i w % 2 ^ (32 * i) = v % 2 ^ (32 * i) := by
  rw [setLimb_eq, Nat.mul_add_mod, Nat.mod_mod]

theorem limb_setLimb_same (v i : Nat) (w : Word) : limb (setLimb v i w) i = w := by
  apply BitVec.eq_of_toNat_eq
  rw [limb_toNat, setLimb_div, Nat.mul_add_mod, Nat.mod_eq_of_lt w.isLt]

/-- A limb below `i` depends on the value modulo `2^(32i)` only. -/
theorem limb_of_mod {v v' i j : Nat} (hj : j < i) (h : v % 2 ^ (32 * i) = v' % 2 ^ (32 * i)) : limb v j = limb v' j := by
  have key (a : Nat) : a / 2 ^ (32 * j) % 2 ^ 32 = a % 2 ^ (32 * i) / 2 ^ (32 * j) % 2 ^ 32 := by
    have hi : 2 ^ (32 * i) = 2 ^ (32 * j) * 2 ^ (32 * (i - j)) := by rw [← Nat.pow_add]; congr 1; omega
    have hd : (2 ^ 32) ∣ 2 ^ (32 * (i - j)) := Nat.pow_dvd_pow 2 (by omega)
    rw [hi, Nat.mod_mul_right_div_self, Nat.mod_mod_of_dvd _ hd]
  apply BitVec.eq_of_toNat_eq
  rw [limb_toNat, limb_toNat, key v, key v', h]

/-- A limb above `i` depends on the value divided by `2^(32(i+1))` only. -/
theorem limb_of_div {v v' i j : Nat} (hj : i < j)
    (h : v / 2 ^ (32 * i) / 2 ^ 32 = v' / 2 ^ (32 * i) / 2 ^ 32) : limb v j = limb v' j := by
  have key (a : Nat) : a / 2 ^ (32 * j) = a / 2 ^ (32 * i) / 2 ^ 32 / 2 ^ (32 * (j - i - 1)) := by
    rw [Nat.div_div_eq_div_mul, Nat.div_div_eq_div_mul, ← Nat.pow_add, ← Nat.pow_add]
    congr 2; omega
  apply BitVec.eq_of_toNat_eq
  rw [limb_toNat, limb_toNat, key v, key v', h]

theorem limb_setLimb_ne {v i j : Nat} (w : Word) (h : j ≠ i) : limb (setLimb v i w) j = limb v j := by
  rcases Nat.lt_or_gt_of_ne h with hlt | hgt
  · exact limb_of_mod hlt (setLimb_mod v i w)
  · refine limb_of_div hgt ?_
    rw [setLimb_div, Nat.mul_add_div (by positivity), Nat.div_eq_of_lt w.isLt, Nat.add_zero]

/-- A limb write inside a register of `n` limbs keeps its width. -/
theorem setLimb_lt {v i n : Nat} (w : Word) (hi : i < n) (hv : v < 2 ^ (32 * n)) : setLimb v i w < 2 ^ (32 * n) := by
  have hn : 2 ^ (32 * n) = 2 ^ (32 * i) * (2 ^ 32 * 2 ^ (32 * (n - i - 1))) := by
    rw [← Nat.pow_add, ← Nat.pow_add]; congr 1; omega
  have hq : v / 2 ^ (32 * i) / 2 ^ 32 < 2 ^ (32 * (n - i - 1)) := by
    rw [Nat.div_div_eq_div_mul, Nat.div_lt_iff_lt_mul (by positivity), mul_comm, mul_assoc, ← hn]
    exact hv
  have hd : setLimb v i w / 2 ^ (32 * i) < 2 ^ 32 * 2 ^ (32 * (n - i - 1)) := by
    rw [setLimb_div]
    have := w.isLt
    calc 2 ^ 32 * (v / 2 ^ (32 * i) / 2 ^ 32) + w.toNat
        < 2 ^ 32 * (v / 2 ^ (32 * i) / 2 ^ 32 + 1) := by rw [Nat.mul_add]; omega
      _ ≤ 2 ^ 32 * 2 ^ (32 * (n - i - 1)) := Nat.mul_le_mul_left _ hq
  rw [hn, mul_comm]
  exact (Nat.div_lt_iff_lt_mul (by positivity)).mp hd

/-- Two naturals below `2^(32n)` with the same `n` limbs are equal. -/
theorem eq_of_limbs {n : Nat} : ∀ {v v' : Nat}, v < 2 ^ (32 * n) → v' < 2 ^ (32 * n) →
    (∀ i, i < n → limb v i = limb v' i) → v = v' := by
  induction n with
  | zero => intro v v' hv hv' _; simp at hv hv'; omega
  | succ n ih =>
    intro v v' hv hv' h
    have hpow : 2 ^ (32 * (n + 1)) = 2 ^ (32 * n) * 2 ^ 32 := by rw [← Nat.pow_add]; congr 1
    have hlow : v % 2 ^ (32 * n) = v' % 2 ^ (32 * n) := by
      refine ih (Nat.mod_lt _ (by positivity)) (Nat.mod_lt _ (by positivity)) fun i hi => ?_
      rw [limb_of_mod hi (Nat.mod_mod v _), limb_of_mod hi (Nat.mod_mod v' _)]
      exact h i (by omega)
    have htop := congrArg BitVec.toNat (h n (by omega))
    rw [limb_toNat, limb_toNat,
      Nat.mod_eq_of_lt (Nat.div_lt_of_lt_mul (by rw [← hpow]; exact hv)),
      Nat.mod_eq_of_lt (Nat.div_lt_of_lt_mul (by rw [← hpow]; exact hv'))] at htop
    rw [← Nat.div_add_mod v (2 ^ (32 * n)), ← Nat.div_add_mod v' (2 ^ (32 * n)), htop, hlow]

/-! ## The register map -/

theorem portTarget_cmdIndex : portTarget cmdIndex = .cmd := by decide

theorem controlTarget_eq_cmd {n : Nat} (h : controlTarget n = .cmd) : n = 2 := by
  unfold controlTarget at h
  split at h <;> first | rfl | cases h

theorem windowTarget_ne_cmd (n : Nat) : windowTarget n ≠ .cmd := by
  unfold windowTarget
  split_ifs <;> simp

/-- CMD stands at one index only. -/
theorem portTarget_eq_cmd_iff (idx : Index) : portTarget idx = .cmd ↔ idx = cmdIndex := by
  constructor
  · intro h
    unfold portTarget at h
    split at h
    · exact BitVec.eq_of_toNat_eq (controlTarget_eq_cmd h)
    · exact absurd h (windowTarget_ne_cmd _)
  · rintro rfl
    exact portTarget_cmdIndex

/-- The operand windows of the map. -/
theorem portTarget_operand (idx : Index) (j : Reg) (i : Nat) (hi : i < 0x400)
    (h : idx.toNat = 0x4000 + 0x400 * j.val + i) : portTarget idx = .limbX j i := by
  have hj := j.isLt
  have hq : (idx.toNat - 0x4000) / 0x400 = j.val := by omega
  have hr : (idx.toNat - 0x4000) % 0x400 = i := by omega
  have hf : Fin.ofNat 8 j.val = j := Fin.ext (Nat.mod_eq_of_lt hj)
  unfold portTarget windowTarget
  rw [if_neg (by omega), if_neg (by omega), if_neg (by omega), if_neg (by omega), if_neg (by omega), if_neg (by omega),
    if_pos (by omega), hq, hr, hf]

theorem operandIndex_toNat (j : Reg) {i : Nat} (hi : i < 0x400) :
    (operandIndex j i).toNat = 0x4000 + 0x400 * j.val + i := by
  have hj := j.isLt
  simp only [operandIndex, BitVec.toNat_ofNat]
  exact Nat.mod_eq_of_lt (by omega)

/-- Where the map puts a limb of an operand register, and that only CMD runs a command: everything a write to another index
can do. -/
theorem portWrite_cases (s : State) (idx : Index) (v : Word) :
    portWrite s idx v = s ∨
    ∃ j i, portTarget idx = .limbX j i ∧ i < s.cfg.limbs ∧ portWrite s idx v = s.writeX j (setLimb (s.readX j) i v) := by
  unfold portWrite
  split
  · next j i h =>
    split
    · next hi => exact .inr ⟨j, i, h, hi, rfl⟩
    · exact .inl rfl
  · exact .inl rfl

end Sys2Proof.Machine
end

