-- ==== Sys2Proof/Laws/PrimeTest.lean ====
section
/-! SUPPORT. The Miller-Rabin test: the split of `c - 1`, what a round checks, and its draws (43_primetest.md R110). -/

namespace Sys2Proof.Machine

open Sys2Proof

/-- `n = 2^s * t` with `t` odd, when the bound allows every halving. -/
theorem splitTwos_spec : ∀ (bound n : Nat), 1 ≤ n → n < 2 ^ bound →
    n = 2 ^ (splitTwos bound n).1 * (splitTwos bound n).2 ∧ (splitTwos bound n).2 % 2 = 1 := by
  intro bound
  induction bound with
  | zero => intro n h1 h2; simp at h2; omega
  | succ bound ih =>
    intro n h1 h2
    unfold splitTwos
    by_cases hn : n % 2 = 0
    · simp only [hn, if_true]
      obtain ⟨he, ho⟩ := ih (n / 2) (by omega) (by rw [Nat.pow_succ] at h2; omega)
      refine ⟨?_, ho⟩
      rw [Nat.pow_succ, mul_comm (2 ^ _) 2, mul_assoc, ← he]
      omega
    · simp only [hn, if_false]
      constructor
      · simp
      · omega

/-- An even number has at least one factor 2 split off. -/
theorem splitTwos_pos {bound n : Nat} (hb : 1 ≤ bound) (hn : n % 2 = 0) : 1 ≤ (splitTwos bound n).1 := by
  obtain ⟨b, rfl⟩ : ∃ b, bound = b + 1 := ⟨bound - 1, by omega⟩
  simp [splitTwos, hn]

/-- The split of an odd candidate (43_primetest.md R110). -/
theorem splitTwos_candidate {c : Nat} (h5 : 5 ≤ c) (hodd : c % 2 = 1) :
    1 ≤ (splitTwos (bitLen (c - 1)) (c - 1)).1 ∧ (splitTwos (bitLen (c - 1)) (c - 1)).2 % 2 = 1 ∧
    c - 1 = 2 ^ (splitTwos (bitLen (c - 1)) (c - 1)).1 * (splitTwos (bitLen (c - 1)) (c - 1)).2 := by
  obtain ⟨he, ho⟩ := splitTwos_spec (bitLen (c - 1)) (c - 1) (by omega) (lt_two_pow_bitLen _)
  exact ⟨splitTwos_pos (bitLen_pos (by omega)) (by omega), ho, he⟩

/-- The inner loop finds `c - 1` among the first `j` squares of a power of `a`. -/
theorem squaringsPass_iff (c a : Nat) : ∀ (j n : Nat),
    squaringsPass c j (a ^ n % c) = true ↔ ∃ i, 1 ≤ i ∧ i ≤ j ∧ a ^ (2 ^ i * n) % c = c - 1 := by
  intro j
  induction j with
  | zero => intro n; simp [squaringsPass]
  | succ j ih =>
    intro n
    have hsq : a ^ n % c * (a ^ n % c) % c = a ^ (2 * n) % c := by
      rw [← Nat.mul_mod, ← Nat.pow_add, two_mul]
    unfold squaringsPass
    simp only [hsq]
    by_cases h : a ^ (2 * n) % c = c - 1
    · simp only [h, if_true, true_iff]
      exact ⟨1, le_refl _, by omega, by simpa using h⟩
    · simp only [h, if_false, ih (2 * n)]
      constructor
      · rintro ⟨i, h1, h2, h3⟩
        refine ⟨i + 1, by omega, by omega, ?_⟩
        rw [Nat.pow_succ, mul_assoc]; exact h3
      · rintro ⟨i, h1, h2, h3⟩
        by_cases hi : i = 1
        · subst hi; simp at h3; exact absurd h3 h
        · refine ⟨i - 1, by omega, by omega, ?_⟩
          have : 2 ^ i = 2 ^ (i - 1) * 2 := by rw [← Nat.pow_succ]; congr 1; omega
          rw [this, mul_assoc] at h3; exact h3

/-- A round with witness `a` passes when `a^t ≡ 1` or `a^(2^j t) ≡ -1 (mod c)` for some `0 ≤ j < s`. -/
theorem roundPasses_iff {c s t a : Nat} (hs : 1 ≤ s) :
    roundPasses c s t a = true ↔ a ^ t % c = 1 ∨ ∃ j, j < s ∧ a ^ (2 ^ j * t) % c = c - 1 := by
  unfold roundPasses
  simp only [modPow_eq]
  by_cases h1 : a ^ t % c = 1
  · simp [h1]
  by_cases h2 : a ^ t % c = c - 1
  · simp only [h2, or_true, if_true, true_iff]
    exact .inr ⟨0, by omega, by simpa using h2⟩
  · simp only [h1, h2, or_self, if_false, false_or, squaringsPass_iff]
    constructor
    · rintro ⟨i, hi1, hi2, hi3⟩
      exact ⟨i, by omega, hi3⟩
    · rintro ⟨j, hj, hj2⟩
      refine ⟨j, ?_, by omega, hj2⟩
      rcases Nat.eq_zero_or_pos j with h0 | h0
      · subst h0; simp at hj2; exact absurd hj2 h2
      · omega

/-- The verdict on an odd candidate of at least 5 is that of its rounds. -/
theorem isProbablePrime_odd {c : Nat} (rounds : Nat) (e : Entropy) (h5 : 5 ≤ c) (hodd : c % 2 = 1) :
    isProbablePrime rounds c e =
      millerRabinRounds c (splitTwos (bitLen (c - 1)) (c - 1)).1 (splitTwos (bitLen (c - 1)) (c - 1)).2 rounds e := by
  unfold isProbablePrime
  rw [if_neg (by omega), if_neg (by omega), if_neg (by omega)]

/-- The draws of the rounds: between one round's and all rounds'. -/
theorem millerRabinRounds_taken (c s t : Nat) : ∀ (rounds : Nat) (e : Entropy),
    (millerRabinRounds c s t rounds e).2.taken ≤ e.taken + rounds * ((bitLen c + 31) / 32) ∧
    (1 ≤ rounds → e.taken + (bitLen c + 31) / 32 ≤ (millerRabinRounds c s t rounds e).2.taken) ∧
    e.taken ≤ (millerRabinRounds c s t rounds e).2.taken := by
  intro rounds
  induction rounds with
  | zero => intro e; simp [millerRabinRounds]
  | succ r ih =>
    intro e
    have hd := drawBits_taken (bitLen c) e
    have hi := ih (drawBits (bitLen c) e).2
    rw [hd] at hi
    unfold millerRabinRounds
    simp only
    rw [Nat.add_mul, Nat.one_mul]
    split
    · refine ⟨by omega, fun _ => by omega, by omega⟩
    · refine ⟨by simp only [hd]; omega, fun _ => by simp only [hd]; omega, by simp only [hd]; omega⟩

/-- The test gives no draw back. -/
theorem isProbablePrime_taken_le (rounds c : Nat) (e : Entropy) : e.taken ≤ (isProbablePrime rounds c e).2.taken := by
  by_cases h : 5 ≤ c ∧ c % 2 = 1
  · rw [isProbablePrime_odd rounds e h.1 h.2]
    exact (millerRabinRounds_taken _ _ _ _ _).2.2
  · unfold isProbablePrime
    split_ifs <;> first | exact le_refl _ | omega

end Sys2Proof.Machine
end

