-- ==== Sys2Proof/Laws/RsaEngine.lean ====
section
/-! SUPPORT. What the prime search and GENERATE's loop can answer (43_primetest.md R113, 44_rsa_engine.md R120). -/

namespace Sys2Proof.Machine

open Sys2Proof

/-- A candidate has exactly `k` bits. -/
theorem drawCandidate_bounds {k : Nat} (hk : 1 ≤ k) (e : Entropy) :
    2 ^ (k - 1) ≤ (drawCandidate k e).1 ∧ (drawCandidate k e).1 < 2 ^ k := by
  unfold drawCandidate
  exact ⟨Nat.right_le_or, Nat.or_lt_two_pow (drawBits_lt k e) (Nat.pow_lt_pow_right (by omega) (by omega))⟩

/-- Everything a `GenPrime` that answers can answer: an accepted number of `k` bits, with at least one candidate spent. -/
theorem genPrime_some {rounds k : Nat} (hk : 1 ≤ k) : ∀ {left : Nat} {e e' : Entropy} {p left' : Nat},
    genPrime rounds k left e = (some (p, left'), e') →
    (2 ^ (k - 1) ≤ p ∧ p < 2 ^ k) ∧ Accepted rounds p ∧ left' < left := by
  intro left
  induction left with
  | zero => intro e e' p left' h; simp [genPrime] at h
  | succ left ih =>
    intro e e' p left' h
    unfold genPrime at h
    by_cases hv : (isProbablePrime rounds (drawCandidate k e).1 (drawCandidate k e).2).1 = true
    · simp only [hv, if_true, Prod.mk.injEq, Option.some.injEq] at h
      obtain ⟨⟨rfl, rfl⟩, -⟩ := h
      exact ⟨drawCandidate_bounds hk e, ⟨_, hv⟩, Nat.lt_succ_self _⟩
    · simp only [hv] at h
      obtain ⟨h1, h2, h3⟩ := ih h
      exact ⟨h1, h2, by omega⟩

/-- Everything the pair of accepted candidates can give. -/
theorem keyOfPair_some {p q n e d : Nat} (hp : 2 ≤ p) (hq : 2 ≤ q) (h : keyOfPair p q = some (n, e, d)) :
    p ≠ q ∧ n = p * q ∧ e = 65537 ∧ d < (p - 1) * (q - 1) ∧
    65537 * d % ((p - 1) * (q - 1)) = 1 % ((p - 1) * (q - 1)) ∧ Nat.gcd 65537 ((p - 1) * (q - 1)) = 1 := by
  unfold keyOfPair at h
  split at h
  · simp at h
  · next hne =>
    have hphi : 1 ≤ (p - 1) * (q - 1) := Nat.mul_pos (by omega) (by omega)
    cases hm : modInv publicExponent ((p - 1) * (q - 1)) with
    | none => simp [hm] at h
    | some d' =>
      simp only [hm, Option.some.injEq, Prod.mk.injEq] at h
      obtain ⟨rfl, rfl, rfl⟩ := h
      obtain ⟨h1, h2, h3⟩ := modInv_some hphi hm
      exact ⟨hne, rfl, rfl, h2, h3, h1⟩

/-- Everything GENERATE's loop can answer with: the key of two accepted numbers of `k` bits. -/
theorem keySearch_some {rounds k : Nat} (hk : 1 ≤ k) : ∀ {bound left : Nat} {e e' : Entropy} {key : Nat × Nat × Nat},
    keySearch rounds k bound left e = (some key, e') →
    ∃ p q, (2 ^ (k - 1) ≤ p ∧ p < 2 ^ k) ∧ (2 ^ (k - 1) ≤ q ∧ q < 2 ^ k) ∧ Accepted rounds p ∧ Accepted rounds q ∧
      keyOfPair p q = some key := by
  intro bound
  induction bound with
  | zero => intro left e e' key h; simp [keySearch] at h
  | succ bound ih =>
    intro left e e' key h
    unfold keySearch at h
    cases hp : genPrime rounds k left e with
    | mk r1 e1 =>
      cases r1 with
      | none => simp [hp] at h
      | some pl =>
        obtain ⟨p, left1⟩ := pl
        simp only [hp] at h
        cases hq : genPrime rounds k left1 e1 with
        | mk r2 e2 =>
          cases r2 with
          | none => simp [hq] at h
          | some ql =>
            obtain ⟨q, left2⟩ := ql
            simp only [hq] at h
            cases hk2 : keyOfPair p q with
            | none => simp only [hk2] at h; exact ih h
            | some key' =>
              simp only [hk2, Prod.mk.injEq, Option.some.injEq] at h
              obtain ⟨rfl, -⟩ := h
              obtain ⟨hpb, hpa, -⟩ := genPrime_some hk hp
              obtain ⟨hqb, hqa, -⟩ := genPrime_some hk hq
              exact ⟨p, q, hpb, hqb, hpa, hqa, hk2⟩

/-! ## Draws are not given back (20_memory.md R54 (c)) -/

@[simp] theorem drawCandidate_taken (k : Nat) (e : Entropy) :
    (drawCandidate k e).2.taken = e.taken + (k + 31) / 32 := drawBits_taken k e

theorem genPrime_taken_le (rounds k : Nat) : ∀ (left : Nat) (e : Entropy),
    e.taken ≤ (genPrime rounds k left e).2.taken := by
  intro left
  induction left with
  | zero => intro e; exact le_refl _
  | succ left ih =>
    intro e
    have h1 := drawCandidate_taken k e
    have h2 := isProbablePrime_taken_le rounds (drawCandidate k e).1 (drawCandidate k e).2
    have h3 := ih (isProbablePrime rounds (drawCandidate k e).1 (drawCandidate k e).2).2
    unfold genPrime
    by_cases hv : (isProbablePrime rounds (drawCandidate k e).1 (drawCandidate k e).2).1 = true
    · simp only [hv, if_true]; omega
    · simp only [hv]; exact le_trans (by omega) h3

theorem keySearch_taken_le (rounds k : Nat) : ∀ (bound left : Nat) (e : Entropy),
    e.taken ≤ (keySearch rounds k bound left e).2.taken := by
  intro bound
  induction bound with
  | zero => intro left e; exact le_refl _
  | succ bound ih =>
    intro left e
    unfold keySearch
    have h1 := genPrime_taken_le rounds k left e
    split
    · next e1 he => rw [he] at h1; exact h1
    · next p left1 e1 he =>
      rw [he] at h1
      have h2 := genPrime_taken_le rounds k left1 e1
      split
      · next e2 he2 => rw [he2] at h2; exact le_trans h1 h2
      · next q left2 e2 he2 =>
        rw [he2] at h2
        have h12 := le_trans h1 h2
        split
        · exact le_trans h12 (ih left2 e2)
        · exact h12

/-- A `GenPrime` that answers draws at least the candidates it spends. -/
theorem genPrime_some_taken {rounds k : Nat} : ∀ {left : Nat} {e e' : Entropy} {p left' : Nat},
    genPrime rounds k left e = (some (p, left'), e') →
    left' ≤ left ∧ e.taken + (left - left') * ((k + 31) / 32) ≤ e'.taken := by
  intro left
  induction left with
  | zero => intro e e' p left' h; simp [genPrime] at h
  | succ left ih =>
    intro e e' p left' h
    have h1 := drawCandidate_taken k e
    have h2 := isProbablePrime_taken_le rounds (drawCandidate k e).1 (drawCandidate k e).2
    unfold genPrime at h
    by_cases hv : (isProbablePrime rounds (drawCandidate k e).1 (drawCandidate k e).2).1 = true
    · simp only [hv, if_true, Prod.mk.injEq, Option.some.injEq] at h
      obtain ⟨⟨-, rfl⟩, rfl⟩ := h
      refine ⟨by omega, ?_⟩
      rw [Nat.add_sub_cancel_left, Nat.one_mul]
      omega
    · simp only [hv] at h
      obtain ⟨h3, h4⟩ := ih h
      refine ⟨by omega, ?_⟩
      rw [Nat.succ_sub h3, Nat.succ_mul]
      omega

/-- A `GenPrime` that fails has drawn every candidate that was left. -/
theorem genPrime_none_taken {rounds k : Nat} : ∀ {left : Nat} {e e' : Entropy},
    genPrime rounds k left e = (none, e') → e.taken + left * ((k + 31) / 32) ≤ e'.taken := by
  intro left
  induction left with
  | zero =>
    intro e e' h
    simp only [genPrime, Prod.mk.injEq, true_and] at h
    rw [Nat.zero_mul, h, Nat.add_zero]
  | succ left ih =>
    intro e e' h
    have h1 := drawCandidate_taken k e
    have h2 := isProbablePrime_taken_le rounds (drawCandidate k e).1 (drawCandidate k e).2
    unfold genPrime at h
    by_cases hv : (isProbablePrime rounds (drawCandidate k e).1 (drawCandidate k e).2).1 = true
    · simp [hv] at h
    · simp only [hv] at h
      have h3 := ih h
      rw [Nat.succ_mul]
      omega

/-- A search that fails, and not by its bound, has drawn every candidate that was left. -/
theorem keySearch_none_taken {rounds k : Nat} (hk : 1 ≤ k) : ∀ {bound left : Nat} {e e' : Entropy}, left < bound →
    keySearch rounds k bound left e = (none, e') → e.taken + left * ((k + 31) / 32) ≤ e'.taken := by
  intro bound
  induction bound with
  | zero => intro left e e' hb; omega
  | succ bound ih =>
    intro left e e' hb h
    unfold keySearch at h
    split at h
    · next e1 he =>
      cases h
      exact genPrime_none_taken he
    · next p left1 e1 he =>
      obtain ⟨h1, h2⟩ := genPrime_some_taken he
      have hlt := (genPrime_some hk he).2.2
      have hsum (l : Nat) (hl : l ≤ left1) : (left - left1) * ((k + 31) / 32) + (left1 - l) * ((k + 31) / 32) +
          l * ((k + 31) / 32) = left * ((k + 31) / 32) := by
        rw [← Nat.add_mul, ← Nat.add_mul]
        congr 1
        omega
      split at h
      · next e2 he2 =>
        cases h
        have h3 := genPrime_none_taken he2
        have := hsum left1 le_rfl
        rw [Nat.sub_self, Nat.zero_mul, Nat.add_zero] at this
        omega
      · next q left2 e2 he2 =>
        obtain ⟨h3, h4⟩ := genPrime_some_taken he2
        split at h
        · have h5 := ih (by omega) h
          have := hsum left2 h3
          omega
        · cases h

/-! ## GENERATE -/

/-- With no key and a legal size GENERATE is its search (44_rsa_engine.md R120). -/
theorem execGenerate_search {s : State} {bits : BitVec 16} (hu : s.engine = .uninitialized) (he : bits.toNat % 2 = 0)
    (h4 : 4 ≤ bits.toNat) (hW : bits.toNat ≤ s.cfg.W) :
    execGenerate bits s = finishCommand s (generateKey (bits.toNat / 2) s) := by
  have hs : keySize bits = bits.toNat := rfl
  simp only [execGenerate]
  rw [if_neg (by rw [hu]; decide), if_neg (by omega), if_neg (by omega), hs]

/-- The key the search found is written (44_rsa_engine.md R120). -/
theorem generateKey_some {k n e d : Nat} {s : State} {ent : Entropy}
    (h : keySearch s.cfg.mrRounds k (s.cfg.tryLimit + 1) s.cfg.tryLimit s.entropy = (some (n, e, d), ent)) :
    generateKey k s = .completes (s.setKey n e d ent) := by
  simp only [generateKey, h]

/-- A search that found none raises PrimeGenerationFailure, its draws gone (44_rsa_engine.md R120). -/
theorem generateKey_none {k : Nat} {s : State} {ent : Entropy}
    (h : keySearch s.cfg.mrRounds k (s.cfg.tryLimit + 1) s.cfg.tryLimit s.entropy = (none, ent)) :
    generateKey k s = .raises .primeGenerationFailure ent := by
  simp only [generateKey, h]

end Sys2Proof.Machine
end

