-- ==== Sys2Proof/Laws/Step.lean ====
section
/-! SUPPORT. What a command and a step can do, said once: `exec` always ends in a next state, a body changes what its command
changes and nothing else, and a step is the next event's transaction. -/

namespace Sys2Proof.Machine

open Sys2Proof

/-! ## Commands -/

/-- Every command ends in a next state (70_reset_and_hazards.md R158). -/
theorem exec_next (i : Instr) (s : State) : ∃ t, exec i s = .next t := by
  cases i
  case primetest ra => exact ⟨_, rfl⟩
  all_goals exact finishCommand_next _ _

/-- A command that failed: an error the MAU raises is reported, draws are gone, nothing else (60_exceptions.md R131, R132). -/
def Failed (s t : State) : Prop := ∃ k ent, k ≠ .invalidUtf8Output ∧ t = (s.setEntropy ent).raiseError k

/-- A command that wrote one operand register and succeeded; the value is a residue or a byte, so it fits. -/
def WroteX (s t : State) (rd : Reg) : Prop :=
  ∃ v, (v < 256 ∨ v < s.keyN ∨ ∃ m, v < s.readX m) ∧ t = (s.writeX rd v).succeed

/-- Everything a command can do (40_modmul.md to 44_rsa_engine.md): fail, write its destination register, write PRIME, or
write the key. -/
theorem exec_cases {i : Instr} {s t : State} (h : exec i s = .next t) :
    Failed s t ∨
    (∃ rd, WroteX s t rd ∧
      ((∃ a m, i = .modred rd a m) ∨ (∃ a b m, i = .modmul rd a b m) ∨ (∃ a b m, i = .modexp rd a b m) ∨
       (∃ a m, i = .modinv rd a m) ∨ (∃ w, i = .encrypt rd w) ∨ (∃ a, i = .decrypt rd a))) ∨
    (∃ ra v ent, i = .primetest ra ∧ t = (s.setPrime v ent).succeed) ∨
    (∃ bits n e d ent, i = .generate bits ∧ s.engine = .uninitialized ∧
      (2 ≤ keySize bits / 2 ∧ 2 * (keySize bits / 2) ≤ s.cfg.W) ∧
      keySearch s.cfg.mrRounds (keySize bits / 2) (s.cfg.tryLimit + 1) s.cfg.tryLimit s.entropy = (some (n, e, d), ent) ∧
      t = (s.setKey n e d ent).succeed) := by
  cases i with
  | modred rd a m =>
    obtain ⟨u, hb, rfl⟩ | ⟨k, ent, hb, rfl⟩ := finishCommand_cases h
    · split at hb
      · cases hb
      next hm =>
      cases hb
      exact .inr (.inl ⟨rd, ⟨_, .inr (.inr ⟨m, Nat.mod_lt _ (by omega)⟩), rfl⟩, by simp⟩)
    · split at hb <;> cases hb
      exact .inl ⟨_, _, by decide, rfl⟩
  | modmul rd a b m =>
    obtain ⟨u, hb, rfl⟩ | ⟨k, ent, hb, rfl⟩ := finishCommand_cases h
    · split at hb
      · cases hb
      next hm =>
      cases hb
      exact .inr (.inl ⟨rd, ⟨_, .inr (.inr ⟨m, Nat.mod_lt _ (by omega)⟩), rfl⟩, by simp⟩)
    · split at hb <;> cases hb
      exact .inl ⟨_, _, by decide, rfl⟩
  | modexp rd a b m =>
    obtain ⟨u, hb, rfl⟩ | ⟨k, ent, hb, rfl⟩ := finishCommand_cases h
    · split at hb
      · cases hb
      next hm =>
      cases hb
      exact .inr (.inl ⟨rd, ⟨_, .inr (.inr ⟨m, by rw [modPow_eq]; exact Nat.mod_lt _ (by omega)⟩), rfl⟩, by simp⟩)
    · split at hb <;> cases hb
      exact .inl ⟨_, _, by decide, rfl⟩
  | modinv rd a m =>
    obtain ⟨u, hb, rfl⟩ | ⟨k, ent, hb, rfl⟩ := finishCommand_cases h
    · split at hb
      · cases hb
      next hm =>
      split at hb
      · cases hb
      next d hd =>
      cases hb
      exact .inr (.inl ⟨rd, ⟨_, .inr (.inr ⟨m, (modInv_some (by omega) hd).2.1⟩), rfl⟩, by simp⟩)
    · split at hb
      · cases hb; exact .inl ⟨_, _, by decide, rfl⟩
      · split at hb <;> cases hb
        exact .inl ⟨_, _, by decide, rfl⟩
  | primetest ra =>
    exact .inr (.inr (.inl ⟨ra, _, _, rfl, by cases h; rfl⟩))
  | generate bits =>
    obtain ⟨u, hb, rfl⟩ | ⟨k, ent, hb, rfl⟩ := finishCommand_cases h
    · split at hb
      · cases hb
      next he =>
      split at hb
      · cases hb
      next ho =>
      split at hb
      · cases hb
      next hz =>
      unfold generateKey at hb
      split at hb
      · cases hb
      next n e d ent hks =>
      cases hb
      refine .inr (.inr (.inr ⟨bits, n, e, d, ent, rfl, ?_, ⟨by omega, by omega⟩, hks, rfl⟩))
      cases hse : s.engine with
      | uninitialized => rfl
      | keyGenerated => exact absurd hse he
    · refine .inl ⟨k, ent, ?_, rfl⟩
      unfold generateKey at hb
      repeat' split at hb
      all_goals cases hb
      all_goals decide
  | encrypt rd w =>
    obtain ⟨u, hb, rfl⟩ | ⟨k, ent, hb, rfl⟩ := finishCommand_cases h
    · split at hb
      · cases hb
      split at hb
      · cases hb
      next hm =>
      cases hb
      exact .inr (.inl ⟨rd, ⟨_, .inr (.inl (by rw [modPow_eq]; exact Nat.mod_lt _ (by omega))), rfl⟩, by simp⟩)
    · repeat' split at hb
      all_goals cases hb
      all_goals exact .inl ⟨_, _, by decide, rfl⟩
  | decrypt rd a =>
    obtain ⟨u, hb, rfl⟩ | ⟨k, ent, hb, rfl⟩ := finishCommand_cases h
    · split at hb
      · cases hb
      split at hb
      · cases hb
      next hm =>
      cases hb
      exact .inr (.inl ⟨rd, ⟨_, .inl (by omega), rfl⟩, by simp⟩)
    · repeat' split at hb
      all_goals cases hb
      all_goals exact .inl ⟨_, _, by decide, rfl⟩

/-! ## Transactions and steps -/

theorem step_idle {s : State} (h : s.pending = []) : step s = .next s := by
  simp [step, h]

theorem step_read {s : State} {idx : Index} {rest : List HostEvent} (h : s.pending = .read idx :: rest) :
    step s = .next ((s.setPending rest).pushReply (portRead (s.setPending rest) idx)) := by
  simp [step, h, transact]

theorem step_reset {s : State} {rest : List HostEvent} (h : s.pending = .reset :: rest) :
    step s = .next (s.setPending rest).resetMau := by
  simp [step, h, transact]

theorem step_resetInside {s : State} {idx : Index} {v : Word} {rest : List HostEvent}
    (h : s.pending = .resetInside idx v :: rest) : step s = .refused .resetInsideTransaction := by
  simp [step, h, transact]

theorem step_command {s : State} {w : Word} {i : Instr} {rest : List HostEvent}
    (h : s.pending = .write cmdIndex w :: rest) (hd : decode w = .command i) :
    step s = exec i ((s.setPending rest).setCmd w) := by
  simp [step, h, transact, hostWrite, portTarget_cmdIndex, writeCommand, hd]

theorem step_illegal {s : State} {w : Word} {rest : List HostEvent}
    (h : s.pending = .write cmdIndex w :: rest) (hd : decode w = .illegal) :
    step s = .next (((s.setPending rest).setCmd w).raiseError .illegalCommand) := by
  simp [step, h, transact, hostWrite, portTarget_cmdIndex, writeCommand, hd]

theorem step_portWrite {s : State} {idx : Index} {v : Word} {rest : List HostEvent}
    (h : s.pending = .write idx v :: rest) (hi : idx ≠ cmdIndex) :
    step s = .next (portWrite (s.setPending rest) idx v) := by
  have hne : portTarget idx ≠ .cmd := fun hc => hi ((portTarget_eq_cmd_iff idx).mp hc)
  simp only [step, h, transact, hostWrite]

/-- Everything a step that answers a next state can be. -/
theorem step_cases {s t : State} (h : step s = .next t) :
    (s.pending = [] ∧ t = s) ∨
    (∃ idx rest, s.pending = .read idx :: rest ∧
      t = (s.setPending rest).pushReply (portRead (s.setPending rest) idx)) ∨
    (∃ rest, s.pending = .reset :: rest ∧ t = (s.setPending rest).resetMau) ∨
    (∃ idx v rest, s.pending = .write idx v :: rest ∧ idx ≠ cmdIndex ∧ t = portWrite (s.setPending rest) idx v) ∨
    (∃ w rest, s.pending = .write cmdIndex w :: rest ∧ decode w = .illegal ∧
      t = ((s.setPending rest).setCmd w).raiseError .illegalCommand) ∨
    (∃ w i rest, s.pending = .write cmdIndex w :: rest ∧ decode w = .command i ∧
      exec i ((s.setPending rest).setCmd w) = .next t) := by
  match hp : s.pending with
  | [] =>
    rw [step_idle hp] at h
    exact .inl ⟨rfl, by simpa using h.symm⟩
  | .read idx :: rest =>
    rw [step_read hp] at h
    exact .inr (.inl ⟨idx, rest, rfl, by simpa using h.symm⟩)
  | .reset :: rest =>
    rw [step_reset hp] at h
    exact .inr (.inr (.inl ⟨rest, rfl, by simpa using h.symm⟩))
  | .resetInside idx v :: rest =>
    rw [step_resetInside hp] at h
    cases h
  | .write idx v :: rest =>
    by_cases hi : idx = cmdIndex
    · subst hi
      cases hd : decode v with
      | illegal =>
        rw [step_illegal hp hd] at h
        exact .inr (.inr (.inr (.inr (.inl ⟨v, rest, rfl, hd, by simpa using h.symm⟩))))
      | command i =>
        rw [step_command hp hd] at h
        exact .inr (.inr (.inr (.inr (.inr ⟨v, i, rest, rfl, hd, h⟩))))
    · rw [step_portWrite hp hi] at h
      exact .inr (.inr (.inr (.inl ⟨idx, v, rest, rfl, hi, by simpa using h.symm⟩)))

end Sys2Proof.Machine
end

