-- ==== Sys2Proof/Tests/Slice0.lean ====
section
/-! SUPPORT. Tests whose expected results are the vectors of 95_test_vectors.md or hand calculation from a rule, and for every
statement with hypotheses a concrete case that meets them. -/

namespace Sys2Proof.Tests

-- One after another: theorems by `decide +kernel` wait for the kernel, each in a thread of its own.
set_option Elab.async false

open Sys2Proof Sys2Proof.Machine

/-! ## Helpers -/

/-- The parameters of 95_test_vectors.md, part B: `W = 64`, `MR_ROUNDS = 2`, `TRY_LIMIT = 16`. -/
def T : Config := { W := 64, mrRounds := 2, tryLimit := 16, base := 0 }

/-- After reset, with three operands in x1, x2 and x4 and 99 in the destination x3. -/
def operands (a b m : Nat) : State := { State.resetOf T with x := #v[0, a, b, 99, m, 0, 0, 0] }

/-- After reset, with draws to come. -/
def drawing (ds : List Word) : State := { State.resetOf T with entropy := { script := ds, taken := 0 } }

/-- The key `n`, `d` is generated, and x1 holds `v`. -/
def keyed (n d v : Nat) : State :=
  { State.resetOf T with x := #v[0, v, 0, 0, 0, 0, 0, 0], keyN := n, keyE := 65537, keyD := d, engine := .keyGenerated }

/-- The key of vector B6.1, `N = 3233`. -/
def key3233 : State := keyed 3233 2753 0

/-- A state in which the host is about to do `evs`. -/
def issuing (s : State) (evs : List HostEvent) : State := { s with pending := evs }

/-- The next state of an outcome. -/
def after (o : Host.Outcome State Fault Refusal) : State :=
  match o with
  | .next t => t
  | _ => State.resetOf T

def isNext (o : Host.Outcome State Fault Refusal) : Bool :=
  match o with
  | .next _ => true
  | _ => false

theorem next_after {o : Host.Outcome State Fault Refusal} (h : isNext o = true) : o = .next (after o) := by
  cases o with
  | next t => rfl
  | fault r => cases r
  | refused r => cases h

theorem exec_after (i : Instr) (s : State) : exec i s = .next (after (exec i s)) := by
  obtain ⟨t, ht⟩ := exec_next i s
  rw [ht]; rfl

/-! ## Decoding: words written out from 30_encoding.md R62 and R65, field by field -/

theorem test_decode_modred : decode (0x01#8 ++ 2#4 ++ 1#4 ++ 0#4 ++ 4#4 ++ 0#8) = .command (.modred 2 1 4) := by decide
theorem test_decode_modmul : decode (0x02#8 ++ 3#4 ++ 1#4 ++ 2#4 ++ 4#4 ++ 0#8) = .command (.modmul 3 1 2 4) := by decide
theorem test_decode_modexp : decode (0x03#8 ++ 3#4 ++ 1#4 ++ 2#4 ++ 4#4 ++ 0#8) = .command (.modexp 3 1 2 4) := by decide
theorem test_decode_modinv : decode (0x04#8 ++ 2#4 ++ 1#4 ++ 0#4 ++ 4#4 ++ 0#8) = .command (.modinv 2 1 4) := by decide
theorem test_decode_primetest : decode (0x05#8 ++ 0#4 ++ 5#4 ++ 0#4 ++ 0#4 ++ 0#8) = .command (.primetest 5) := by decide
theorem test_decode_generate : decode (0x10#8 ++ 0#4 ++ 0#4 ++ 0xFFFE#16) = .command (.generate 0xFFFE) := by decide
theorem test_decode_encrypt : decode (0x11#8 ++ 7#4 ++ 0#4 ++ 0#4 ++ 0#4 ++ 65#8) = .command (.encrypt 7 65) := by decide
theorem test_decode_decrypt : decode (0x12#8 ++ 1#4 ++ 6#4 ++ 0#4 ++ 0#4 ++ 0#8) = .command (.decrypt 1 6) := by decide

/-- The illegal words of vector B8. -/
theorem test_decode_refuses :
    [0x00000000#32, 0xFFFFFFFF, 0x06000000, 0x0F000000, 0x13000000, 0x03812400, 0x03318400, 0x03312401, 0x01211400, 0x05150000,
      0x05050100, 0x1001000C, 0x1100A141, 0x11010041, 0x12100001, 0x12900000].map decode = List.replicate 16 .illegal := by
  decide

/-- The assembler texts of 30_encoding.md R69. -/
theorem test_text : [Instr.modexp 3 1 2 4, .modred 2 1 4, .primetest 5, .generate 12, .encrypt 0 65, .decrypt 1 0].map Instr.text =
    ["modexp x3, x1, x2, x4", "modred x2, x1, x4", "primetest x5", "generate 12", "encrypt x0, 65", "decrypt x1, x0"] := by
  decide +kernel

/-! ## WellFormed: one ill-formed term for each check -/

theorem test_wf_reserved_opcodes :
    [0x00#8, 0x06, 0x0F, 0x13, 0xFF].map (fun b => (Fields.mk b 0 0 0 0 0).wellFormed) = List.replicate 5 false := by decide

/-- Specifier 8 to 15 names no register: each used field of each format in turn. -/
theorem test_wf_reserved_specifiers :
    [Fields.mk 0x03 8 1 2 4 0, .mk 0x03 3 9 2 4 0, .mk 0x03 3 1 15 4 0, .mk 0x03 3 1 2 8 0, .mk 0x01 8 1 0 4 0, .mk 0x01 2 8 0 4 0,
      .mk 0x04 2 1 0 8 0, .mk 0x12 8 0 0 0 0, .mk 0x12 0 8 0 0 0, .mk 0x05 0 8 0 0 0, .mk 0x11 8 0 0 0 0].map Fields.wellFormed =
    List.replicate 11 false := by decide

/-- A field the format does not use must be zero: each unused field of each format in turn. -/
theorem test_wf_unused_fields :
    [Fields.mk 0x02 3 1 2 4 1, .mk 0x01 2 1 1 4 0, .mk 0x04 2 1 0 4 1, .mk 0x12 1 0 1 0 0, .mk 0x12 1 0 0 1 0, .mk 0x12 1 0 0 0 1,
      .mk 0x05 1 5 0 0 0, .mk 0x05 0 5 1 0 0, .mk 0x05 0 5 0 1 0, .mk 0x05 0 5 0 0 1, .mk 0x11 0 1 0 0 65, .mk 0x11 0 0 1 0 65,
      .mk 0x11 0 0 0 1 65, .mk 0x10 1 0 0 0 0, .mk 0x10 0 1 0 0 0].map Fields.wellFormed = List.replicate 15 false := by decide

/-- The highest specifiers are legal, and a zero M3 command too (vector B8). -/
theorem test_wf_accepts :
    [Fields.mk 0x03 7 7 7 7 0, .mk 0x01 0 0 0 0 0, .mk 0x10 0 0 0xF 0xF 0xFE, .mk 0x11 0 0 0 0 0xFF].map Fields.wellFormed =
    List.replicate 4 true := by decide

/-! ## The fetch helpers, and commands from the reset state -/

theorem test_decodeTableWord : decodeTableWord 32 0x03312400 = some (.modexp 3 1 2 4) ∧ decodeTableWord 32 0 = none := by decide

/-- `modred x2, x1, x4` as the first command after reset: x4 is 0, so ZeroModulus (60_exceptions.md R130, R131). -/
theorem test_fetch_at_reset :
    let t := after (step (State.reset.withFetchWord 32 0x01210400))
    t.cmd = 0x01210400 ∧ t.err = 7 ∧ t.errlog = 0x80 ∧ t.pending = [] := by decide +kernel

/-- An illegal word, vector P4: CMD holds it, ERR is 9, bit 9 of ERRLOG is set. -/
theorem test_illegal_word :
    let t := after (step (State.reset.withFetchWord 32 0x03812400))
    t.cmd = 0x03812400 ∧ t.err = 9 ∧ t.errlog = 0x200 ∧ t.x = State.reset.x := by decide +kernel

/-! ## Commands -/

/-- Vector B1 rows 1 and 10. -/
theorem test_modred : (after (exec (.modred 3 1 4) (operands 65537 0 3120))).x[3] = 17 ∧
    (after (exec (.modred 3 1 4) (operands 6 0 0))).x[3] = 99 := by decide +kernel

/-- Vector B2: the product is exact before the reduction. -/
theorem test_modmul_wide :
    (after (exec (.modmul 3 1 2 4) (operands 0xFFFFFFFFFFFFFFFF 0xFFFFFFFFFFFFFFFF 0xFFFFFFFFFFFFFFC5))).x[3] = 3364 := by
  decide +kernel

/-- The destination is a source and the modulus (40_modmul.md R83): 17 * 2753 mod 3120 = 1. -/
theorem test_modmul_over_its_modulus : (after (exec (.modmul 4 1 2 4) (operands 17 2753 3120))).x[4] = 1 := by decide +kernel

/-- Vector B3: the worked example of the source. -/
theorem test_modexp : (after (exec (.modexp 3 1 2 4) (operands 65 17 3233))).x[3] = 2790 ∧
    (after (exec (.modexp 3 1 2 4) (operands 2790 2753 3233))).x[3] = 65 := by decide +kernel

/-- Vector B3: `0^0 = 1`, and 0 for the modulus 1. -/
theorem test_modexp_corners : (after (exec (.modexp 3 1 2 4) (operands 0 0 7))).x[3] = 1 ∧
    (after (exec (.modexp 3 1 2 4) (operands 5 0 1))).x[3] = 0 := by decide +kernel

/-- Vector B4 rows 1 and 14: a result made positive, and one at full width. -/
theorem test_modinv : (after (exec (.modinv 3 1 4) (operands 17 0 3120))).x[3] = 2753 ∧
    (after (exec (.modinv 3 1 4) (operands 2 0 0xFFFFFFFFFFFFFFC5))).x[3] = 0x7FFFFFFFFFFFFFE3 := by decide +kernel

/-- Vector B4: 6 has no inverse modulo 9. -/
theorem test_modinv_none :
    let t := after (exec (.modinv 3 1 4) (operands 6 0 9))
    t.x[3] = 99 ∧ t.err = 2 ∧ t.errlog = 4 := by decide +kernel

/-- Vector B5: 561 passes with witness 50 and then 101, and 9 is rejected after one draw. -/
theorem test_primetest :
    (after (exec (.primetest 1) { operands 561 0 0 with entropy := ⟨[48, 99], 0⟩ })).primeFlag = true ∧
    (after (exec (.primetest 1) { operands 9 0 0 with entropy := ⟨[0, 7], 0⟩ })).entropy = ⟨[7], 1⟩ := by decide +kernel

/-- Vector B6 row 3: 61 and 61 are drawn again. -/
theorem test_generate :
    let t := after (exec (.generate 12) (drawing [61, 0, 1, 61, 0, 1, 61, 0, 1, 53, 0, 1]))
    t.keyN = 3233 ∧ t.keyE = 65537 ∧ t.keyD = 2753 ∧ t.engine = .keyGenerated ∧ t.entropy = ⟨[], 12⟩ := by decide +kernel

/-- Vector B6 row 4: sixteen zeros. -/
theorem test_generate_exhausted :
    let t := after (exec (.generate 12) (drawing (List.replicate 16 0)))
    t.err = 1 ∧ t.errlog = 2 ∧ t.engine = .uninitialized ∧ t.entropy = ⟨[], 16⟩ := by decide +kernel

/-- Vectors B7.1 row 1 and B7.2: a byte below `N`, and one equal to it. -/
theorem test_encrypt : (after (exec (.encrypt 0 65) key3233)).x[0] = 2790 ∧
    (after (exec (.encrypt 0 143) (keyed 143 113 0))).err = 3 := by decide +kernel

/-- Vectors B7.1: back to 65, and 6023 = 3233 + 2790 is not compared with `N`. -/
theorem test_decrypt : (after (exec (.decrypt 0 1) (keyed 3233 2753 2790))).x[0] = 65 ∧
    (after (exec (.decrypt 0 1) (keyed 3233 2753 6023))).x[0] = 65 := by decide +kernel

/-! ## The host port -/

/-- Vector B9: two limbs of x1, and STATUS after an error. -/
theorem test_limbs : limb 0x0123456789ABCDEF 1 = 0x01234567 ∧ setLimb 0x0123456789ABCDEF 0 7 = 0x0123456700000007 := by
  decide +kernel

theorem test_status : portRead { key3233 with err := 4, primeFlag := true } 0x0003 = 7 := by decide +kernel

/-- 20_memory.md R47: the byte address of an index is four times it above the base. -/
theorem test_byteAddress : byteAddress { T with base := 0x10000 } 0x4401 = 0x21004 := by decide

/-- 30_encoding.md R70: `modsqr` is MODMUL with the factor twice, and `set` writes every limb. -/
theorem test_script : HostLine.expand T (.modsqr 3 1 4) = [.write 2 0x02311400] ∧
    HostLine.expand T (.set 1 65) = [.write 0x4400 65, .write 0x4401 0] := by decide

/-! ## Witnesses: encoding and envelope -/

theorem witness_EncodeInvertsDecode : decode 0x1000FFFE = .command (.generate 0xFFFE) := by decide

theorem witness_RowIsMaskAndMatch :
    (0x03777700 : Word) &&& Opcode.maskBits .modexp = Opcode.matchBits .modexp ∧
    (fieldsOf 0x06000000).op ∉ [0x01#8, 0x02#8, 0x03#8, 0x04#8, 0x05#8, 0x10#8, 0x11#8, 0x12#8] := by decide

theorem witness_StepRunsTheDecodedCommand :
    (issuing key3233 [.write 0x0002 0x11000041, .read 4]).pending = .write 0x0002 0x11000041 :: [.read 4] ∧
    decode 0x11000041 = .command (.encrypt 0 65) := by decide

theorem witness_IllegalWordOnlyRaises :
    (issuing key3233 [.write 0x0002 0x03812400]).pending = .write 0x0002 0x03812400 :: [] ∧
    (fieldsOf 0x03812400).wellFormed = false := by decide

/-- A GENERATE about to exhaust the search with zeros, at the largest size. -/
def exhausting : State := issuing (drawing (List.replicate 16 0)) [.write 0x0002 0x10000040]

/-- One word of a command that succeeds, one of a command that fails, and a GENERATE whose search fails. -/
theorem witness_FailingCommandsArePrecise :
    ((issuing key3233 [.write 0x0002 0x11000041]).pending = .write 0x0002 0x11000041 :: [] ∧
      (after (step (issuing key3233 [.write 0x0002 0x11000041]))).err = 0) ∧
    ((issuing key3233 [.write 0x0002 0x1000000C]).pending = .write 0x0002 0x1000000C :: [] ∧
      (after (step (issuing key3233 [.write 0x0002 0x1000000C]))).err = 8) ∧
    (exhausting.pending = .write 0x0002 0x10000040 :: [] ∧ decode 0x10000040 = .command (.generate 64) ∧
      exhausting.engine = .uninitialized ∧ (64#16).toNat % 2 = 0 ∧ 4 ≤ (64#16).toNat ∧ (64#16).toNat ≤ exhausting.cfg.W ∧
      (after (step exhausting)).err ≠ 0) := by decide +kernel

theorem witness_OnlyTestsAndSearchesDraw :
    exec (.modred 2 1 4) (operands 7 0 5) = .next (after (exec (.modred 2 1 4) (operands 7 0 5))) ∧
    (Instr.modred 2 1 4).opcode ≠ .primetest ∧ (Instr.modred 2 1 4).opcode ≠ .generate :=
  ⟨exec_after _ _, by decide, by decide⟩

/-! ## Witnesses: the primitive commands -/

/-- The modulus 0, and the smallest other one. -/
theorem witness_ModredResult : (operands 6 0 0).x[(4 : Reg)] = 0 ∧ (operands 6 0 1).x[(4 : Reg)] ≠ 0 := by decide +kernel

theorem witness_ModmulResult : (operands 6 5 0).x[(4 : Reg)] = 0 ∧ (operands 6 5 1).x[(4 : Reg)] ≠ 0 := by decide +kernel

theorem witness_ModexpResult : (operands 0 0 0).x[(4 : Reg)] = 0 ∧ (operands 0 0 1).x[(4 : Reg)] ≠ 0 := by decide +kernel

/-- The modulus 0; 0 modulo 2, which is not coprime; 0 modulo 1, which is. -/
theorem witness_ModinvResult : (operands 0 0 0).x[(4 : Reg)] = 0 ∧
    ((operands 0 0 2).x[(4 : Reg)] ≠ 0 ∧ Nat.gcd (operands 0 0 2).x[(1 : Reg)] (operands 0 0 2).x[(4 : Reg)] ≠ 1) ∧
    ((operands 0 0 1).x[(4 : Reg)] ≠ 0 ∧ Nat.gcd (operands 0 0 1).x[(1 : Reg)] (operands 0 0 1).x[(4 : Reg)] = 1) := by
  decide +kernel

theorem witness_SquareAndMultiplyIsNaive : 1 ≤ 1 ∧ modPow 5 3 1 = 0 := by decide +kernel

theorem witness_EuclidComputesTheInverse : (1 ≤ 1 ∧ Nat.gcd (0 % 1) 1 = 1) ∧ (1 ≤ 2 ∧ Nat.gcd (4 % 2) 2 ≠ 1) := by decide

/-! ## Witnesses: draws and the primality test -/

/-- One bit takes one draw, and 33 bits take two. -/
theorem witness_DrawBitsAssemblesDraws : 1 ≤ 1 ∧ drawBits 1 ⟨[7], 0⟩ = (1, ⟨[], 1⟩) ∧ 1 ≤ 33 ∧
    drawBits 33 ⟨[5, 3, 9], 0⟩ = (0x100000005, ⟨[9], 2⟩) := by decide +kernel

/-- The early verdicts at their boundaries; a passing and a failing witness: 5 and 9 with draw 0 (vector B5). -/
theorem witness_MillerRabinRounds : (1 < 2) ∧ (2 ≤ 3 ∧ 3 < 4) ∧ (4 ≤ 4 ∧ 4 % 2 = 0) ∧ (5 ≤ 5 ∧ 5 % 2 = 1) ∧
    (5 - 1 = 2 ^ 2 * 1 ∧ ∃ j, j < 2 ∧ (2 + (drawBits (bitLen 5) ⟨[0], 0⟩).1 % (5 - 3)) ^ (2 ^ j * 1) % 5 = 5 - 1) ∧
    (9 - 1 = 2 ^ 3 * 1 ∧ ¬((2 + (drawBits (bitLen 9) ⟨[0], 0⟩).1 % (9 - 3)) ^ 1 % 9 = 1 ∨
      ∃ j, j < 3 ∧ (2 + (drawBits (bitLen 9) ⟨[0], 0⟩).1 % (9 - 3)) ^ (2 ^ j * 1) % 9 = 9 - 1)) := by
  refine ⟨by decide, by decide, by decide, by decide, ⟨by decide, 1, by decide +kernel⟩, by decide, ?_⟩
  have h : (drawBits (bitLen 9) ⟨[0], 0⟩).1 = 0 := by decide +kernel
  rw [h]
  decide

theorem witness_PrimeTestDrawCount : (1 ≤ 1 ∧ 5 ≤ 5 ∧ 5 % 2 = 1) ∧ (1 ≤ 1 ∧ 4 % 2 = 0) := by decide

theorem witness_PrimesAreAlwaysAccepted : Nat.Prime 2 ∧ Nat.Prime 61 := by norm_num

theorem witness_NineAndThirtyThreeRejected : 1 ≤ 1 ∧ (isProbablePrime 1 33 ⟨[0], 0⟩).1 = false := by decide +kernel

/-- The boundaries of the early verdicts: 1, 2, 3, 4. -/
theorem witness_PrimetestResult : (operands 1 0 0).x[(1 : Reg)] < 2 ∧ (operands 2 0 0).x[(1 : Reg)] = 2 ∧
    (operands 3 0 0).x[(1 : Reg)] = 3 ∧ (4 ≤ (operands 4 0 0).x[(1 : Reg)] ∧ (operands 4 0 0).x[(1 : Reg)] % 2 = 0) := by
  decide +kernel

/-! ## Witnesses: GENERATE -/

/-- A candidate of 2 bits that is accepted, and one of 3 bits that is rejected. -/
theorem witness_PrimeSearchTriesCandidates : 2 ≤ 2 ∧
    isProbablePrime 2 3 (drawBits 2 ⟨[3, 8], 0⟩).2 = (true, ⟨[8], 1⟩) ∧
    isProbablePrime 2 4 (drawBits 3 ⟨[0, 8], 0⟩).2 = (false, ⟨[8], 1⟩) := by decide +kernel

/-- A key exists; sizes 0 and 1; sizes 2 and `W + 2`. -/
theorem witness_GenerateChecksInOrder : key3233.engine = .keyGenerated ∧
    (State.reset.engine = .uninitialized ∧ (0#16).toNat = 0 ∧ (1#16).toNat % 2 = 1) ∧
    ((2#16).toNat % 2 = 0 ∧ (2#16).toNat = 2) ∧
    ((66#16).toNat % 2 = 0 ∧ (66#16).toNat ≠ 0 ∧ (drawing []).cfg.W < (66#16).toNat) := by decide

/-- The smallest size, with draws 2 and 3, and vector B6 row 1. -/
theorem witness_GenerateTakesTheFirstGoodPair :
    ((drawing [2, 3]).engine = .uninitialized ∧ (4#16).toNat % 2 = 0 ∧ 4 ≤ (4#16).toNat ∧ (4#16).toNat ≤ (drawing [2, 3]).cfg.W ∧
      2 ≤ (drawing [2, 3]).cfg.tryLimit ∧
      drawCandidate ((4#16).toNat / 2) (drawing [2, 3]).entropy = (2, ⟨[3], 1⟩) ∧
      isProbablePrime 2 2 ⟨[3], 1⟩ = (true, ⟨[3], 1⟩) ∧
      drawCandidate ((4#16).toNat / 2) ⟨[3], 1⟩ = (3, ⟨[], 2⟩) ∧ isProbablePrime 2 3 ⟨[], 2⟩ = (true, ⟨[], 2⟩) ∧
      2 ≠ 3 ∧ Nat.gcd 65537 ((2 - 1) * (3 - 1)) = 1) ∧
    (drawCandidate ((12#16).toNat / 2) (drawing [61, 0, 1, 53, 0, 1]).entropy = (61, ⟨[0, 1, 53, 0, 1], 1⟩) ∧
      isProbablePrime 2 61 ⟨[0, 1, 53, 0, 1], 1⟩ = (true, ⟨[53, 0, 1], 3⟩) ∧
      drawCandidate ((12#16).toNat / 2) ⟨[53, 0, 1], 3⟩ = (53, ⟨[0, 1], 4⟩) ∧
      isProbablePrime 2 53 ⟨[0, 1], 4⟩ = (true, ⟨[], 6⟩) ∧
      61 ≠ 53 ∧ Nat.gcd 65537 ((61 - 1) * (53 - 1)) = 1) := by decide +kernel

/-- Equal candidates, and 917519 = 14 * 65537 + 1 with 524309, both prime. -/
theorem witness_SearchRedrawsABadPair :
    (2 ≤ 2 ∧ genPrime 2 2 16 ⟨[3, 3], 0⟩ = (some (3, 15), ⟨[3], 1⟩) ∧ genPrime 2 2 15 ⟨[3], 1⟩ = (some (3, 14), ⟨[], 2⟩)) ∧
    (2 ≤ 20 ∧ genPrime 2 20 16 ⟨[917519, 0, 1, 524309, 0, 1], 0⟩ = (some (917519, 15), ⟨[524309, 0, 1], 3⟩) ∧
      genPrime 2 20 15 ⟨[524309, 0, 1], 3⟩ = (some (524309, 14), ⟨[], 6⟩) ∧
      Nat.gcd 65537 ((917519 - 1) * (524309 - 1)) ≠ 1) := by decide +kernel

theorem witness_SearchBoundIsNeverReached : 0 < 1 ∧ keySearch 2 2 1 0 ⟨[3], 0⟩ = (none, ⟨[3], 0⟩) := by decide +kernel

/-- The three outcomes: an error of a check at the first illegal size above `W`, an error of the search, and a key. -/
theorem witness_GenerateMakesAKeyOrFails :
    (T.W < (66#16).toNat ∧ (after (exec (.generate 66) (drawing [5]))).err = 1 ∧
      (after (exec (.generate 66) (drawing [5]))).entropy = ⟨[5], 0⟩) ∧
    ((keySearch 2 32 17 16 exhausting.entropy).1 = none ∧ (after (exec (.generate 64) exhausting)).entropy = ⟨[], 16⟩) ∧
    (keySearch 2 2 17 16 ⟨[2, 3], 0⟩ = (some (6, 65537, 1), ⟨[], 2⟩) ∧
      (after (exec (.generate 4) (drawing [2, 3]))).keyN = 6) := by decide +kernel

theorem witness_FourBitKeyIsSix : (drawing [0, 1]).engine = .uninitialized ∧
    exec (.generate 4) (drawing [0, 1]) = .next (after (exec (.generate 4) (drawing [0, 1]))) ∧
    (after (exec (.generate 4) (drawing [0, 1]))).engine = .keyGenerated :=
  ⟨rfl, exec_after _ _, by decide +kernel⟩

/-- The smallest and the largest size the statement covers. -/
theorem witness_ZeroDrawsExhaustTheSearch :
    ((drawing (List.replicate 16 0)).engine = .uninitialized ∧ (6#16).toNat % 2 = 0 ∧ 6 ≤ (6#16).toNat ∧ (6#16).toNat ≤ T.W ∧
      (drawing (List.replicate 16 0)).entropy.script = List.replicate (16 * (((6#16).toNat / 2 + 31) / 32)) 0 ++ []) ∧
    ((64#16).toNat % 2 = 0 ∧ 6 ≤ (64#16).toNat ∧ (64#16).toNat ≤ T.W ∧
      (drawing (List.replicate 16 0 ++ [5])).entropy.script = List.replicate (16 * (((64#16).toNat / 2 + 31) / 32)) 0 ++ [5]) := by
  decide +kernel

/-! ## Witnesses: ENCRYPT, DECRYPT and the round trip -/

/-- No key; the byte `N`; the byte `N - 1` (`N = 143`, vector B7.2). -/
theorem witness_EncryptResult : State.reset.engine = .uninitialized ∧
    ((keyed 143 113 0).engine = .keyGenerated ∧ (keyed 143 113 0).keyN ≤ (143#8).toNat) ∧
    (142#8).toNat < (keyed 143 113 0).keyN := by decide

/-- No key; the powers 256 and 255, with the exponent 1. -/
theorem witness_DecryptResult : State.reset.engine = .uninitialized ∧
    ((keyed 3233 1 256).engine = .keyGenerated ∧
      256 ≤ (keyed 3233 1 256).x[(1 : Reg)] ^ (keyed 3233 1 256).keyD % (keyed 3233 1 256).keyN) ∧
    (keyed 3233 1 255).x[(1 : Reg)] ^ (keyed 3233 1 255).keyD % (keyed 3233 1 255).keyN < 256 := by decide +kernel

/-- The key of vector B6.1 is a key. -/
theorem key3233_keyFrom : key3233.KeyFrom 61 53 6 :=
  ⟨by decide, by decide, by decide, by decide, ⟨⟨[0, 1], 0⟩, by decide +kernel⟩, ⟨⟨[0, 1], 0⟩, by decide +kernel⟩,
    by decide, by decide, by decide, by decide +kernel, by decide +kernel⟩

/-- The key `N = 6` is a key, the smallest. -/
theorem key6_keyFrom : (keyed 6 1 0).KeyFrom 2 3 2 :=
  ⟨by decide, by decide, by decide, by decide, ⟨⟨[], 0⟩, by decide +kernel⟩, ⟨⟨[], 0⟩, by decide +kernel⟩,
    by decide, by decide, by decide, by decide +kernel, by decide +kernel⟩

/-- The byte 255 with `N = 3233`, and the byte `N - 1 = 5` with `N = 6`, the same register twice. -/
theorem witness_EncryptThenDecryptReturnsTheByte :
    (key3233.engine = .keyGenerated ∧ key3233.KeyFrom 61 53 6 ∧ Nat.Prime 61 ∧ Nat.Prime 53 ∧ (255#8).toNat < key3233.keyN ∧
      (issuing key3233 [.write 2 0x111000FF, .write 2 0x12210000]).pending =
        HostLine.expand key3233.cfg (.command (.encrypt 1 255)) ++ HostLine.expand key3233.cfg (.command (.decrypt 2 1)) ++ []) ∧
    ((keyed 6 1 0).engine = .keyGenerated ∧ (keyed 6 1 0).KeyFrom 2 3 2 ∧ Nat.Prime 2 ∧ Nat.Prime 3 ∧
      (5#8).toNat < (keyed 6 1 0).keyN ∧
      (issuing (keyed 6 1 0) [.write 2 0x11000005, .write 2 0x12000000]).pending =
        HostLine.expand (keyed 6 1 0).cfg (.command (.encrypt 0 5)) ++ HostLine.expand (keyed 6 1 0).cfg (.command (.decrypt 0 0)) ++ []) :=
  ⟨⟨rfl, key3233_keyFrom, by norm_num, by norm_num, by decide, by decide⟩,
    ⟨rfl, key6_keyFrom, by norm_num, by norm_num, by decide, by decide⟩⟩

/-! ## Witnesses: frames and whole-machine rules -/

/-- A command of each form the frame names, from a state with a key. -/
theorem witness_RegisterCommandsFrame : ∀ i ∈ [Instr.modred 2 1 4, .modmul 2 1 3 4, .modexp 2 1 3 4, .modinv 2 1 4, .encrypt 2 65,
      .decrypt 2 1],
    ((∃ a m, i = .modred 2 a m) ∨ (∃ a b m, i = .modmul 2 a b m) ∨ (∃ a b m, i = .modexp 2 a b m) ∨
      (∃ a m, i = .modinv 2 a m) ∨ (∃ w, i = .encrypt 2 w) ∨ (∃ a, i = .decrypt 2 a)) ∧
    exec i key3233 = .next (after (exec i key3233)) :=
  fun i hi => ⟨by fin_cases hi <;> simp, exec_after i _⟩

theorem witness_TestAndGenerateFrame :
    exec (.primetest 1) (operands 9 0 0) = .next (after (exec (.primetest 1) (operands 9 0 0))) ∧
    (exec (.generate 4) (drawing [0, 1]) = .next (after (exec (.generate 4) (drawing [0, 1]))) ∧
      (after (exec (.generate 4) (drawing [0, 1]))).err = 0) ∧
    (exec (.generate 4) key3233 = .next (after (exec (.generate 4) key3233)) ∧ (after (exec (.generate 4) key3233)).err ≠ 0) :=
  ⟨exec_after _ _, ⟨exec_after _ _, by decide +kernel⟩, exec_after _ _, by decide +kernel⟩

theorem witness_PrimitivesIgnoreTheKey : ∀ i ∈ [Instr.modred 2 1 4, .modmul 2 1 3 4, .modexp 2 1 3 4, .modinv 2 1 4, .primetest 1],
    i.opcode ∈ [Opcode.modred, .modmul, .modexp, .modinv, .primetest] ∧ exec i key3233 = .next (after (exec i key3233)) :=
  fun i hi => ⟨by fin_cases hi <;> decide, exec_after i _⟩

/-- A GENERATE that writes the key, as a step. -/
def generating : State := issuing (drawing [2, 3]) [.write 0x0002 0x10000004]

/-- A reset that drops a key, as a step. -/
def resetting : State := issuing { key3233 with primeFlag := true } [.reset]

theorem witness_StateChangesByGenerateOnly :
    (step generating = .next (after (step generating)) ∧ (after (step generating)).engine ≠ generating.engine) ∧
    (step resetting = .next (after (step resetting)) ∧ (after (step resetting)).engine ≠ resetting.engine) :=
  ⟨⟨next_after (by decide +kernel), by decide +kernel⟩, next_after (by decide +kernel), by decide +kernel⟩

theorem witness_KeyIsImmutable : step generating = .next (after (step generating)) ∧ (after (step generating)).keyN = 6 :=
  ⟨next_after (by decide +kernel), by decide +kernel⟩

/-- A PRIMETEST that sets PRIME, as a step, and a reset that clears it. -/
theorem witness_PrimeWrittenByPrimetestOnly :
    (step (issuing (operands 3 0 0) [.write 2 0x05010000]) = .next (after (step (issuing (operands 3 0 0) [.write 2 0x05010000]))) ∧
      (after (step (issuing (operands 3 0 0) [.write 2 0x05010000]))).primeFlag ≠ (operands 3 0 0).primeFlag) ∧
    (step resetting = .next (after (step resetting)) ∧ (after (step resetting)).primeFlag ≠ resetting.primeFlag) :=
  ⟨⟨next_after (by decide +kernel), by decide +kernel⟩, next_after (by decide +kernel), by decide +kernel⟩

/-- Bit 9 is new after an illegal word, and bit 7 is kept. -/
theorem witness_ErrlogOnlyGrows :
    let s := issuing { State.resetOf T with errlog := 0x80 } [.write 2 0]
    step s = .next (after (step s)) ∧ (∀ rest, s.pending ≠ .reset :: rest) ∧ s.errlog.getLsbD 7 = true ∧
      s.errlog.getLsbD 9 = false ∧ (after (step s)).errlog.getLsbD 9 = true :=
  ⟨next_after (by decide +kernel), by simp [issuing], by decide, by decide, by decide +kernel⟩

/-- A read, a write of an operand limb, and writes next to CMD. -/
theorem witness_HostAccessesRaiseNothing :
    (issuing key3233 [.read 2]).pending = .read 2 :: [] ∧
    ((issuing key3233 [.write 0x4401 7]).pending = .write 0x4401 7 :: [] ∧ (0x4401#16).toNat ≠ 2) ∧
    ((issuing key3233 [.write 1 7]).pending = .write 1 7 :: [] ∧ (1#16).toNat ≠ 2) ∧
    ((issuing key3233 [.write 3 7]).pending = .write 3 7 :: [] ∧ (3#16).toNat ≠ 2) := by decide

theorem witness_OnlyAResetInsideIsRefused :
    (issuing key3233 [.resetInside 2 0x11000041]).pending = .resetInside 2 0x11000041 :: [] := by decide

theorem witness_IdleHoldsTheState : key3233.pending = [] := by decide

/-! ## Witnesses: the host port -/

theorem witness_ControlRegisterReads : key3233.cfg.Valid ∧
    [0x0000#16, 1, 2, 4, 5, 6, 7].map BitVec.toNat = [0, 1, 2, 4, 5, 6, 7] ∧
    (issuing key3233 [.read 7]).pending = .read 7 :: [] := by decide

theorem witness_StatusShowsTheFlags : (issuing key3233 [.write 0x0003 7]).pending = .write 0x0003 7 :: [] ∧ (issuing key3233 [.read 0x0003]).pending = .read 0x0003 :: [] ∧ key3233.engine = .keyGenerated ∧
    3 ≤ 3 := by decide

/-- Limbs 0, `L - 1`, `L` and 0x3FF of the windows, and limb 0x3FF of the widest hardware. -/
theorem witness_LimbWindows : key3233.cfg.Valid ∧
    ((0x2000#16).toNat = 0x2000 + 0 ∧ (0x2401#16).toNat = 0x2400 + 1 ∧ (0x2802#16).toNat = 0x2800 + 2 ∧
      (0x5FFF#16).toNat = 0x4000 + 0x400 * (7 : Reg).val + 0x3FF) ∧
    (1 < key3233.cfg.W / 32 ∧ key3233.cfg.W / 32 ≤ 2 ∧ 0x3FF < 0x400) ∧
    (Config.Valid { T with W := 32768 } ∧ 0x3FF < 32768 / 32) ∧
    ((issuing key3233 [.read 0x2000]).pending = .read 0x2000 :: []) ∧
    ((issuing key3233 [.write 0x4001 7]).pending = .write 0x4001 7 :: [] ∧ (0x4001#16).toNat = 0x4000 + 0x400 * (0 : Reg).val + 1) ∧
    ((issuing key3233 [.write 0x5C02 7]).pending = .write 0x5C02 7 :: [] ∧
      (0x5C02#16).toNat = 0x4000 + 0x400 * (7 : Reg).val + 2) := by decide

/-- Both ends of each reserved range, and the ends of the read-only indices. -/
theorem witness_ReservedAndReadOnlyIndices :
    (8 ≤ (0x0008#16).toNat ∧ (0x1FFF#16).toNat < 0x2000) ∧ (0x2C00 ≤ (0x2C00#16).toNat ∧ (0x3FFF#16).toNat < 0x4000) ∧
    (0x6000 ≤ (0x6000#16).toNat ∧ 0x6000 ≤ (0xFFFF#16).toNat) ∧
    (∀ idx ∈ [0x0000#16, 1, 3, 7, 8, 0x1FFF, 0x2000, 0x2BFF, 0x3FFF, 0x6000, 0xFFFF],
      idx.toNat ≠ 2 ∧ ¬(0x4000 ≤ idx.toNat ∧ idx.toNat < 0x6000)) ∧
    (issuing key3233 [.read 8]).pending = .read 8 :: [] ∧ (issuing key3233 [.write 0x2000 7]).pending = .write 0x2000 7 :: [] := by
  simp [issuing]

/-- The largest value of the register. -/
theorem witness_SetLineWritesTheRegister : key3233.cfg.Valid ∧ key3233.x[(1 : Reg)] < 2 ^ key3233.cfg.W ∧
    2 ^ 64 - 1 < 2 ^ key3233.cfg.W ∧
    (issuing key3233 [.write 0x4400 0xFFFFFFFF, .write 0x4401 0xFFFFFFFF]).pending =
      HostLine.expand key3233.cfg (.set 1 (2 ^ 64 - 1)) ++ [] := by decide +kernel

/-- Each of the four lines. -/
theorem witness_GetLinesReadTheRegister : key3233.cfg.Valid ∧ key3233.x[(7 : Reg)] < 2 ^ key3233.cfg.W ∧
    key3233.keyN < 2 ^ key3233.cfg.W ∧ key3233.keyE < 2 ^ key3233.cfg.W ∧ key3233.keyD < 2 ^ key3233.cfg.W ∧
    (issuing key3233 [.read 0x5C00, .read 0x5C01]).pending = HostLine.expand key3233.cfg (.get 7) ++ [] ∧
    (issuing key3233 [.read 0x2000, .read 0x2001]).pending = HostLine.expand key3233.cfg .getn ++ [] ∧
    (issuing key3233 [.read 0x2400, .read 0x2401]).pending = HostLine.expand key3233.cfg .gete ++ [] ∧
    (issuing key3233 [.read 0x2800, .read 0x2801]).pending = HostLine.expand key3233.cfg .getd ++ [] := by decide +kernel

/-! ## Witnesses: reset, the invariant and the datapath -/

/-- The suggested, the smallest and the largest parameters. -/
theorem witness_ResetValues : Config.suggested.Valid ∧ Config.Valid { W := 64, mrRounds := 1, tryLimit := 2, base := 0 } ∧
    Config.Valid { W := 32768, mrRounds := 255, tryLimit := 2 ^ 32 - 1, base := 4 } := by decide +kernel

theorem witness_ResetStartsANewInstance : resetting.pending = .reset :: [] ∧ step resetting = .next (after (step resetting)) ∧
    resetting.engine = .keyGenerated ∧ (after (step resetting)).engine = .uninitialized :=
  ⟨rfl, next_after (by decide +kernel), rfl, by decide +kernel⟩

theorem witness_InvHoldsAtReset : T.Valid := by decide

theorem xs_fit : ∀ r : Reg, generating.readX r < 2 ^ generating.cfg.W := by decide +kernel

theorem keyed_xs_fit : ∀ r : Reg, key3233.readX r < 2 ^ key3233.cfg.W := by decide +kernel

/-- A state before a key, about to make one, and a state with a key. -/
theorem witness_EveryStepKeepsInv :
    (generating.Inv ∧ step generating = .next (after (step generating))) ∧
    ((issuing key3233 [.write 2 0x11000041]).Inv ∧
      step (issuing key3233 [.write 2 0x11000041]) = .next (after (step (issuing key3233 [.write 2 0x11000041])))) := by
  refine ⟨⟨⟨by decide, ⟨xs_fit, by decide, by decide, by decide⟩, ⟨fun _ => by decide, fun h => absurd h (by decide)⟩, .inl rfl,
      fun c h => ?_, fun h => absurd rfl h⟩, next_after (by decide +kernel)⟩,
    ⟨by decide, ⟨keyed_xs_fit, by decide, by decide, by decide⟩, ⟨fun h => absurd h (by decide), fun _ => ⟨61, 53, 6, key3233_keyFrom⟩⟩,
      .inl rfl, fun c h => ?_, fun h => absurd rfl h⟩, next_after (by decide +kernel)⟩
  · simp [generating, issuing, drawing, State.resetOf, Arch.reset] at h
  · simp [issuing, key3233, keyed, State.resetOf, Arch.reset] at h

theorem witness_RunsNeverStop : T.Valid ∧ ∀ ev ∈ [HostEvent.write 2 0x10000004, .read 3, .reset], ev.InScope := by
  refine ⟨by decide, fun ev h idx v => ?_⟩
  rintro rfl
  simp at h

theorem witness_BarrettIsTheRemainder : (1 ≤ 1 ∧ 3 < 2 ^ (2 * bitLen 1)) ∧ (1 ≤ 5 ∧ 63 < 2 ^ (2 * bitLen 5)) := by decide +kernel

theorem witness_RedcDividesByR : 3 ≤ 3 ∧ 3 % 2 = 1 ∧ 3 < 2 ^ 2 ∧ 11 < 2 ^ 2 * 3 := by decide

theorem witness_DatapathComputesModmul : (1 ≤ 1 ∧ 1 < 2 ^ 1) ∧ (1 ≤ 0xFFFFFFFFFFFFFFFF ∧ 0xFFFFFFFFFFFFFFFF < 2 ^ 64) := by decide

end Sys2Proof.Tests
end

section
/-! SUPPORT. What the host port shows at the control indices, and the reset value of every register (10_state.md R25 to R36). -/

namespace Sys2Proof.Machine

open Sys2Proof

/-! ## Flags and STATUS -/

theorem State.keygenFlag_iff (s : State) : s.keygenFlag = true ↔ s.engine = .keyGenerated := by
  simp [State.keygenFlag]

theorem State.errFlag_iff (s : State) : s.errFlag = true ↔ s.err ≠ 0 := by
  simp [State.errFlag]

/-- Three flags packed as STATUS packs them do not overlap. -/
theorem packedFlags_getLsbD : ∀ a b c : Bool,
    (BitVec.ofNat 32 (a.toNat + 2 * b.toNat + 4 * c.toNat)).getLsbD 0 = a ∧
    (BitVec.ofNat 32 (a.toNat + 2 * b.toNat + 4 * c.toNat)).getLsbD 1 = b ∧
    (BitVec.ofNat 32 (a.toNat + 2 * b.toNat + 4 * c.toNat)).getLsbD 2 = c := by decide

@[simp] theorem State.status_getLsbD_zero (s : State) : s.status.getLsbD 0 = s.keygenFlag :=
  (packedFlags_getLsbD _ _ _).1

@[simp] theorem State.status_getLsbD_one (s : State) : s.status.getLsbD 1 = s.errFlag :=
  (packedFlags_getLsbD _ _ _).2.1

@[simp] theorem State.status_getLsbD_two (s : State) : s.status.getLsbD 2 = s.primeFlag :=
  (packedFlags_getLsbD _ _ _).2.2

theorem State.status_toNat_lt (s : State) : s.status.toNat < 8 := by
  have hk := s.keygenFlag.toNat_le
  have he := s.errFlag.toNat_le
  have hp := s.primeFlag.toNat_le
  simp only [State.status, BitVec.toNat_ofNat]
  omega

theorem State.status_getLsbD_of_three_le (s : State) {i : Nat} (hi : 3 ≤ i) : s.status.getLsbD i = false :=
  Nat.testBit_lt_two_pow (s.status_toNat_lt.trans_le (Nat.pow_le_pow_right (n := 2) (by decide) hi))

/-! ## Reads of the control indices -/

@[simp] theorem portRead_id (s : State) : portRead s 0x0000 = 0x52534131 := rfl
@[simp] theorem portRead_status (s : State) : portRead s 0x0003 = s.status := rfl

/-- STATUS is read-only. -/
@[simp] theorem portWrite_status (s : State) (v : Word) : portWrite s 0x0003 v = s := rfl

theorem toNat_setWidth_ofNat {n m v : Nat} (hv : v < 2 ^ n) (hnm : n ≤ m) : ((BitVec.ofNat n v).setWidth m).toNat = v := by
  rw [BitVec.toNat_setWidth_of_le hnm, BitVec.toNat_ofNat, Nat.mod_eq_of_lt hv]

theorem portRead_width_toNat (s : State) (h : s.cfg.Valid) : (portRead s 0x0001).toNat = s.cfg.W := by
  obtain ⟨⟨_, _, hW⟩, _⟩ := h
  exact toNat_setWidth_ofNat (n := 16) (by omega) (by decide)

theorem portRead_rounds_toNat (s : State) (h : s.cfg.Valid) : (portRead s 0x0006).toNat = s.cfg.mrRounds := by
  obtain ⟨_, ⟨_, hR⟩, _⟩ := h
  exact toNat_setWidth_ofNat (n := 8) (by omega) (by decide)

theorem portRead_trylim_toNat (s : State) (h : s.cfg.Valid) : (portRead s 0x0007).toNat = s.cfg.tryLimit := by
  obtain ⟨_, _, ⟨_, hT⟩, _⟩ := h
  exact Nat.mod_eq_of_lt (by omega)

/-! ## Reset values -/

@[simp] theorem State.resetOf_keyN (c : Config) : (State.resetOf c).keyN = 0 := rfl
@[simp] theorem State.resetOf_keyE (c : Config) : (State.resetOf c).keyE = 0 := rfl
@[simp] theorem State.resetOf_keyD (c : Config) : (State.resetOf c).keyD = 0 := rfl
@[simp] theorem State.resetOf_engine (c : Config) : (State.resetOf c).engine = .uninitialized := rfl
@[simp] theorem State.resetOf_primeFlag (c : Config) : (State.resetOf c).primeFlag = false := rfl
@[simp] theorem State.resetOf_cmd (c : Config) : (State.resetOf c).cmd = 0 := rfl
@[simp] theorem State.resetOf_err (c : Config) : (State.resetOf c).err = 0 := rfl
@[simp] theorem State.resetOf_errlog (c : Config) : (State.resetOf c).errlog = 0 := rfl
@[simp] theorem State.resetOf_cfg (c : Config) : (State.resetOf c).cfg = c := rfl
@[simp] theorem State.resetOf_x (c : Config) : (State.resetOf c).x = Vector.replicate 8 0 := rfl

@[simp] theorem State.resetOf_x_get (c : Config) (r : Reg) : (State.resetOf c).x[r] = 0 := by
  rw [State.resetOf_x]
  exact Vector.getElem_replicate r.isLt

@[simp] theorem State.resetOf_status (c : Config) : (State.resetOf c).status = 0 := rfl

theorem portRead_status_resetOf (c : Config) : portRead (State.resetOf c) 0x0003 = 0 := by
  rw [portRead_status, State.resetOf_status]

end Sys2Proof.Machine
end

section
/-! PROOFS. The statements about the state's registers as the host sees them (10_state.md). -/

namespace Sys2Proof.Machine

open Sys2Proof

/-- Settles O45: a read of index 3 hands over the packed flags, and the map gives its writes no effect. -/
theorem statusShowsTheFlags : Obligations.StatusShowsTheFlags := by
  unfold Obligations.StatusShowsTheFlags
  refine ⟨fun s rest hread => ⟨s.status, step_read hread, ?_, ?_, s.status_getLsbD_two,
    fun i hi => s.status_getLsbD_of_three_le hi⟩, fun s v rest hwrite => ?_, portRead_status_resetOf⟩
  · rw [s.status_getLsbD_zero, s.keygenFlag_iff]
  · rw [s.status_getLsbD_one, s.errFlag_iff]
  · rw [step_portWrite hwrite (by decide), portWrite_status]
    rfl

/-- Settles O50: the registers are those of the reset state, and the three constants fit the words they are read in. -/
theorem resetValues : Obligations.ResetValues := by
  unfold Obligations.ResetValues
  intro c
  exact ⟨State.resetOf_engine c, State.resetOf_keyN c, State.resetOf_keyE c, State.resetOf_keyD c,
    State.resetOf_x_get c, State.resetOf_primeFlag c, State.resetOf_cmd c, State.resetOf_err c, State.resetOf_errlog c,
    portRead_id _, portRead_status_resetOf c,
    fun h => ⟨portRead_width_toNat _ h, portRead_rounds_toNat _ h, portRead_trylim_toNat _ h⟩⟩

end Sys2Proof.Machine
end

section
/-! SUPPORT. What the host port shows and takes in each range of the register map (20_memory.md R42 to R45). -/

namespace Sys2Proof.Machine

open Sys2Proof

/-! ## The ranges of the map -/

/-- Index 8 and above is not a control register. -/
theorem portTarget_eq_windowTarget {idx : Index} (h : 8 ≤ idx.toNat) : portTarget idx = windowTarget idx.toNat :=
  if_neg (by omega)

theorem portTarget_windowN {idx : Index} {i : Nat} (hi : i < 0x400) (h : idx.toNat = 0x2000 + i) :
    portTarget idx = .limbN i := by
  rw [portTarget_eq_windowTarget (by omega), h, windowTarget, if_neg (by omega), if_pos (by omega), Nat.add_sub_cancel_left]

theorem portTarget_windowE {idx : Index} {i : Nat} (hi : i < 0x400) (h : idx.toNat = 0x2400 + i) :
    portTarget idx = .limbE i := by
  rw [portTarget_eq_windowTarget (by omega), h, windowTarget, if_neg (by omega), if_neg (by omega), if_pos (by omega),
    Nat.add_sub_cancel_left]

theorem portTarget_windowD {idx : Index} {i : Nat} (hi : i < 0x400) (h : idx.toNat = 0x2800 + i) :
    portTarget idx = .limbD i := by
  rw [portTarget_eq_windowTarget (by omega), h, windowTarget, if_neg (by omega), if_neg (by omega), if_neg (by omega),
    if_pos (by omega), Nat.add_sub_cancel_left]

/-- The three reserved ranges of the map. -/
theorem portTarget_reserved {idx : Index}
    (h : (8 ≤ idx.toNat ∧ idx.toNat < 0x2000) ∨ (0x2C00 ≤ idx.toNat ∧ idx.toNat < 0x4000) ∨ 0x6000 ≤ idx.toNat) :
    portTarget idx = .reserved := by
  rw [portTarget_eq_windowTarget (by omega), windowTarget]
  obtain ⟨_, hlow⟩ | ⟨hmid, hmid'⟩ | hhigh := h
  · rw [if_pos hlow]
  · rw [if_neg (by omega), if_neg (by omega), if_neg (by omega), if_neg (by omega), if_pos hmid']
  · rw [if_neg (by omega), if_neg (by omega), if_neg (by omega), if_neg (by omega), if_neg (by omega), if_neg (by omega)]

theorem controlTarget_ne_limbX (n : Nat) (j : Reg) (i : Nat) : controlTarget n ≠ .limbX j i := by
  unfold controlTarget
  split <;> simp

theorem windowTarget_limbX_range {n i : Nat} {j : Reg} (h : windowTarget n = .limbX j i) : 0x4000 ≤ n ∧ n < 0x6000 := by
  unfold windowTarget at h
  split_ifs at h
  exact ⟨by omega, by omega⟩

/-- Limbs of operand registers stand at 0x4000 to 0x5FFF only. -/
theorem portTarget_limbX_range {idx : Index} {i : Nat} {j : Reg} (h : portTarget idx = .limbX j i) :
    0x4000 ≤ idx.toNat ∧ idx.toNat < 0x6000 := by
  unfold portTarget at h
  split at h
  · exact absurd h (controlTarget_ne_limbX _ j i)
  · exact windowTarget_limbX_range h

/-! ## Reads and writes by what the map puts at the index -/

theorem readLimb_toNat (c : Config) (v i : Nat) :
    (readLimb c v i).toNat = if i < c.limbs then v / 2 ^ (32 * i) % 2 ^ 32 else 0 := by
  unfold readLimb
  split
  · exact limb_toNat v i
  · rfl

theorem portRead_windowN {s : State} {idx : Index} {i : Nat} (hi : i < 0x400) (h : idx.toNat = 0x2000 + i) :
    portRead s idx = readLimb s.cfg s.keyN i := by
  rw [portRead, portTarget_windowN hi h]

theorem portRead_windowE {s : State} {idx : Index} {i : Nat} (hi : i < 0x400) (h : idx.toNat = 0x2400 + i) :
    portRead s idx = readLimb s.cfg s.keyE i := by
  rw [portRead, portTarget_windowE hi h]

theorem portRead_windowD {s : State} {idx : Index} {i : Nat} (hi : i < 0x400) (h : idx.toNat = 0x2800 + i) :
    portRead s idx = readLimb s.cfg s.keyD i := by
  rw [portRead, portTarget_windowD hi h]

theorem portRead_operand {s : State} {idx : Index} {j : Reg} {i : Nat} (hi : i < 0x400)
    (h : idx.toNat = 0x4000 + 0x400 * j.val + i) : portRead s idx = readLimb s.cfg (s.readX j) i := by
  rw [portRead, portTarget_operand idx j i hi h]

theorem portRead_reserved {s : State} {idx : Index} (h : portTarget idx = .reserved) : portRead s idx = 0 := by
  rw [portRead, h]

theorem portWrite_operand (s : State) {idx : Index} {j : Reg} {i : Nat} (v : Word) (hi : i < 0x400)
    (h : idx.toNat = 0x4000 + 0x400 * j.val + i) (hl : i < s.cfg.limbs) :
    portWrite s idx v = s.writeX j (setLimb (s.readX j) i v) := by
  rw [portWrite, portTarget_operand idx j i hi h]
  exact if_pos hl

/-- A write beyond limb `L - 1` of an operand register is ignored (20_memory.md R43). -/
theorem portWrite_operand_beyond (s : State) {idx : Index} {j : Reg} {i : Nat} (v : Word) (hi : i < 0x400)
    (h : idx.toNat = 0x4000 + 0x400 * j.val + i) (hl : s.cfg.limbs ≤ i) : portWrite s idx v = s := by
  rw [portWrite, portTarget_operand idx j i hi h]
  exact if_neg (Nat.not_lt.mpr hl)

/-- A write outside the operand windows is ignored (20_memory.md R44, R45). -/
theorem portWrite_ignored (s : State) {idx : Index} (v : Word) (h : ¬(0x4000 ≤ idx.toNat ∧ idx.toNat < 0x6000)) :
    portWrite s idx v = s := by
  obtain hs | ⟨j, i, ht, -⟩ := portWrite_cases s idx v
  · exact hs
  · exact absurd (portTarget_limbX_range ht) h

/-- A limb write replaces its own 32 bits and no others. -/
theorem setLimb_limbs (v i : Nat) (w : Word) (l : Nat) :
    setLimb v i w / 2 ^ (32 * l) % 2 ^ 32 = if l = i then w.toNat else v / 2 ^ (32 * l) % 2 ^ 32 := by
  rw [← limb_toNat, ← limb_toNat]
  split
  · next h => rw [h, limb_setLimb_same]
  · next h => rw [limb_setLimb_ne w h]

theorem ne_cmdIndex {idx : Index} (h : idx.toNat ≠ 2) : idx ≠ cmdIndex :=
  fun hc => h (congrArg BitVec.toNat hc)

end Sys2Proof.Machine
end

section
/-! PROOFS. The statements about the register map of the host port (20_memory.md). -/

namespace Sys2Proof.Machine

open Sys2Proof

/-- Settles O46: a window's index names its register and limb, a read hands over that limb, and a write sets it where the
register has it. -/
theorem limbWindows : Obligations.LimbWindows := by
  unfold Obligations.LimbWindows
  intro s idx i rest _ hi
  refine ⟨fun hread => ⟨portRead (s.setPending rest) idx, step_read hread, fun h => ?_, fun h => ?_, fun h => ?_,
    fun j h => ?_⟩, fun j v hwrite h => ?_⟩
  · rw [portRead_windowN hi h]; exact readLimb_toNat _ _ i
  · rw [portRead_windowE hi h]; exact readLimb_toNat _ _ i
  · rw [portRead_windowD hi h]; exact readLimb_toNat _ _ i
  · rw [portRead_operand hi h]; exact readLimb_toNat _ _ i
  · rw [step_portWrite hwrite (ne_cmdIndex (by omega))]
    refine ⟨fun hlimb => ⟨setLimb (s.readX j) i v, ?_, setLimb_limbs (s.readX j) i v⟩, fun hbeyond => ?_⟩
    · rw [portWrite_operand (s.setPending rest) v hi h hlimb]
      rfl
    · rw [portWrite_operand_beyond (s.setPending rest) v hi h hbeyond]
      rfl

/-- Settles O47: the map puts nothing at a reserved index, and an index that takes a write is CMD or in an operand window. -/
theorem reservedAndReadOnlyIndices : Obligations.ReservedAndReadOnlyIndices := by
  unfold Obligations.ReservedAndReadOnlyIndices
  intro s idx rest
  refine ⟨fun hread hres => ?_, fun v hwrite hcmd hx => ?_⟩
  · rw [step_read hread, portRead_reserved (portTarget_reserved hres)]
    rfl
  · rw [step_portWrite hwrite (ne_cmdIndex hcmd), portWrite_ignored _ v hx]
    rfl

end Sys2Proof.Machine
end

section
/-! SUPPORT. The rows of the opcode table (30_encoding.md R65): which row an opcode byte names, what the decoder does with
a word of a row, and a row's mask read field by field. -/

namespace Sys2Proof

/-! ## The row of an opcode byte -/

theorem Opcode.ofByte_byte (o : Opcode) : Opcode.ofByte o.byte = some o := by
  cases o <;> rfl

theorem Opcode.byte_injective : Function.Injective Opcode.byte := fun o o' h =>
  Option.some.inj (by rw [← o.ofByte_byte, ← o'.ofByte_byte, h])

theorem Opcode.byte_of_ofByte {b : BitVec 8} {o : Opcode} (h : Opcode.ofByte b = some o) : o.byte = b :=
  beq_iff_eq.mp (List.find?_some (p := fun o : Opcode => o.byte == b) h)

/-- No row has a reserved opcode's byte. -/
theorem Opcode.byte_ne_of_ofByte {b : BitVec 8} (h : Opcode.ofByte b = none) (o : Opcode) : b ≠ o.byte := by
  rintro rfl
  simp [o.ofByte_byte] at h

theorem Opcode.map_byte_all :
    Opcode.all.map Opcode.byte = [0x01#8, 0x02#8, 0x03#8, 0x04#8, 0x05#8, 0x10#8, 0x11#8, 0x12#8] := rfl

theorem Opcode.ofByte_eq_none {b : BitVec 8} (h : b ∉ Opcode.all.map Opcode.byte) : Opcode.ofByte b = none :=
  List.find?_eq_none.mpr fun _ ho hb => h (List.mem_map.mpr ⟨_, ho, beq_iff_eq.mp hb⟩)

/-! ## The decoder by rows -/

/-- The command of a row with the operands the word's fields name (30_encoding.md R71). -/
def Opcode.commandOf (o : Opcode) (cw : Word) : Instr :=
  let f := fieldsOf cw
  match o with
  | .modred => .modred (regOf f.rd) (regOf f.ra) (regOf f.rm)
  | .modmul => .modmul (regOf f.rd) (regOf f.ra) (regOf f.rb) (regOf f.rm)
  | .modexp => .modexp (regOf f.rd) (regOf f.ra) (regOf f.rb) (regOf f.rm)
  | .modinv => .modinv (regOf f.rd) (regOf f.ra) (regOf f.rm)
  | .primetest => .primetest (regOf f.ra)
  | .generate => .generate (cw.extractLsb' 0 16)
  | .encrypt => .encrypt (regOf f.rd) f.imm8
  | .decrypt => .decrypt (regOf f.rd) (regOf f.ra)

theorem Opcode.commandOf_opcode (o : Opcode) (cw : Word) : (o.commandOf cw).opcode = o := by
  cases o <;> rfl

/-- A word with a row's opcode byte is that row's command when its fields fit the row's format, and illegal otherwise. -/
theorem decode_of_op {cw : Word} {o : Opcode} (h : (fieldsOf cw).op = o.byte) :
    decode cw = if (fieldsOf cw).fits o.format = true then .command (o.commandOf cw) else .illegal := by
  cases o <;>
    simp [decode, h, Opcode.byte, Opcode.format, Fields.fits, Opcode.commandOf, namesReg_eq_isReg, and_assoc]

theorem decode_of_reserved {cw : Word} (h : Opcode.ofByte (fieldsOf cw).op = none) : decode cw = .illegal := by
  have hne (o : Opcode) : (fieldsOf cw).op ≠ o.byte := Opcode.byte_ne_of_ofByte h o
  exact (if_neg (hne .modred)).trans <| (if_neg (hne .modmul)).trans <| (if_neg (hne .modexp)).trans <|
    (if_neg (hne .modinv)).trans <| (if_neg (hne .primetest)).trans <| (if_neg (hne .generate)).trans <|
    (if_neg (hne .encrypt)).trans <| if_neg (hne .decrypt)

/-- A word is a command of a row exactly when it has the row's opcode byte and its fields fit the row's format. -/
theorem decode_opcode_iff (cw : Word) (o : Opcode) :
    (∃ i, decode cw = .command i ∧ i.opcode = o) ↔ (fieldsOf cw).op = o.byte ∧ (fieldsOf cw).fits o.format = true := by
  constructor
  · rintro ⟨i, hi, ho⟩
    cases hrow : Opcode.ofByte (fieldsOf cw).op with
    | none => simp [decode_of_reserved hrow] at hi
    | some o' =>
      have hop := (Opcode.byte_of_ofByte hrow).symm
      rw [decode_of_op hop] at hi
      split at hi
      next hfit =>
        cases hi
        rw [o'.commandOf_opcode] at ho
        exact ho ▸ ⟨hop, hfit⟩
      next => cases hi
  · rintro ⟨hop, hfit⟩
    exact ⟨o.commandOf cw, by rw [decode_of_op hop, if_pos hfit], o.commandOf_opcode cw⟩

/-- The decoder refuses what the formats call ill formed (30_encoding.md R62, R63, R66). -/
theorem decode_of_not_wellFormed {cw : Word} (h : (fieldsOf cw).wellFormed = false) : decode cw = .illegal := by
  unfold Fields.wellFormed at h
  split at h
  next o hrow => rw [decode_of_op (Opcode.byte_of_ofByte hrow).symm, if_neg (Bool.eq_false_iff.mp h)]
  next hrow => exact decode_of_reserved hrow

/-! ## Masks, field by field -/

/-- The bits of each field that a format fixes: all of an unused field and of the opcode, bit 3 of a specifier, none of an
immediate (30_encoding.md R62, R63, R66). -/
def Format.mask : Format → Fields
  | .M4 => ⟨.allOnes 8, 8, 8, 8, 8, .allOnes 8⟩
  | .M3 => ⟨.allOnes 8, 8, 8, .allOnes 4, 8, .allOnes 8⟩
  | .M2 => ⟨.allOnes 8, 8, 8, .allOnes 4, .allOnes 4, .allOnes 8⟩
  | .M1 => ⟨.allOnes 8, .allOnes 4, 8, .allOnes 4, .allOnes 4, .allOnes 8⟩
  | .I => ⟨.allOnes 8, 8, .allOnes 4, .allOnes 4, .allOnes 4, 0⟩
  | .G => ⟨.allOnes 8, .allOnes 4, .allOnes 4, 0, 0, 0⟩

/-- The mask column is the format's mask. -/
theorem Opcode.fieldsOf_maskBits (o : Opcode) : fieldsOf o.maskBits = o.format.mask := by
  cases o <;> decide

/-- The match column is the opcode byte over zero fields. -/
theorem Opcode.fieldsOf_matchBits (o : Opcode) : fieldsOf o.matchBits = ⟨o.byte, 0, 0, 0, 0, 0⟩ := by
  cases o <;> decide

theorem fieldsOf_injective : Function.Injective fieldsOf :=
  Function.LeftInverse.injective word_fieldsOf

theorem fieldsOf_and (v w : Word) :
    fieldsOf (v &&& w) =
      ⟨(fieldsOf v).op &&& (fieldsOf w).op, (fieldsOf v).rd &&& (fieldsOf w).rd, (fieldsOf v).ra &&& (fieldsOf w).ra,
       (fieldsOf v).rb &&& (fieldsOf w).rb, (fieldsOf v).rm &&& (fieldsOf w).rm,
       (fieldsOf v).imm8 &&& (fieldsOf w).imm8⟩ := by
  simp only [fieldsOf, BitVec.extractLsb'_and]

/-- A specifier names a register exactly when bit 3 is zero (30_encoding.md R63). -/
theorem and_eight_eq_zero_iff (f : BitVec 4) : f &&& 8#4 = 0#4 ↔ Fields.namesReg f = true := by
  revert f; decide

/-- A word matches a row under its mask exactly when it has the row's opcode byte and its fields fit the row's format. -/
theorem and_maskBits_eq_matchBits_iff (cw : Word) (o : Opcode) :
    cw &&& o.maskBits = o.matchBits ↔ (fieldsOf cw).op = o.byte ∧ (fieldsOf cw).fits o.format = true := by
  rw [← fieldsOf_injective.eq_iff, fieldsOf_and, o.fieldsOf_maskBits, o.fieldsOf_matchBits]
  cases o.format <;>
    simp only [Format.mask, Fields.fits, Fields.mk.injEq, BitVec.and_allOnes, and_eight_eq_zero_iff, BitVec.ofNat_eq_ofNat,
      BitVec.and_zero, Bool.and_eq_true, beq_iff_eq, and_assoc, and_true]

/-- No word matches two rows: the masks fix the opcode byte. -/
theorem matchBits_unique {cw : Word} {o o' : Opcode} (h : cw &&& o.maskBits = o.matchBits)
    (h' : cw &&& o'.maskBits = o'.matchBits) : o = o' := by
  obtain ⟨hop, -⟩ := (and_maskBits_eq_matchBits_iff cw o).mp h
  obtain ⟨hop', -⟩ := (and_maskBits_eq_matchBits_iff cw o').mp h'
  exact Opcode.byte_injective (hop.symm.trans hop')

end Sys2Proof
end

section
/-! PROOFS. The statements about the encoding of commands and illegal words (30_encoding.md R65, R67). -/

namespace Sys2Proof.Machine

open Sys2Proof

/-- Settles O3: decoding to a row's command and matching the row under its mask both say that the word has the row's opcode
byte and fields that fit its format. -/
theorem rowIsMaskAndMatch : Obligations.RowIsMaskAndMatch := by
  unfold Obligations.RowIsMaskAndMatch
  refine ⟨fun w o => ?_, fun _ _ _ => matchBits_unique, fun w h => ?_, Opcode.map_byte_all, rfl⟩
  · rw [decode_opcode_iff, and_maskBits_eq_matchBits_iff]
  · rw [← Opcode.map_byte_all] at h
    exact decode_of_reserved (Opcode.ofByte_eq_none h)

/-- Settles O8: the decoder refuses an ill-formed word, so the step stores it and raises code 9. -/
theorem illegalWordOnlyRaises : Obligations.IllegalWordOnlyRaises := by
  unfold Obligations.IllegalWordOnlyRaises
  refine ⟨fun s w rest hwrite hill => ?_, by decide, by decide⟩
  rw [step_illegal hwrite (decode_of_not_wellFormed hill)]
  rfl

end Sys2Proof.Machine
end

section
/-! SUPPORT. The "Encoding" line of every command (30_encoding.md R62, R65), from its well-formed fields. -/

namespace Sys2Proof

/-- What `Laws.FieldsFit` says of each constructor, for every command. -/
theorem Instr.fieldsFit : ∀ i : Instr, Laws.FieldsFit.Statement i
  | .modred rd ra rm => Laws.FieldsFit.modred rd ra rm
  | .modmul rd ra rb rm => Laws.FieldsFit.modmul rd ra rb rm
  | .modexp rd ra rb rm => Laws.FieldsFit.modexp rd ra rb rm
  | .modinv rd ra rm => Laws.FieldsFit.modinv rd ra rm
  | .primetest ra => Laws.FieldsFit.primetest ra
  | .generate bits => Laws.FieldsFit.generate bits
  | .encrypt rd imm8 => Laws.FieldsFit.encrypt rd imm8
  | .decrypt rd ra => Laws.FieldsFit.decrypt rd ra

theorem Instr.fields_op (i : Instr) : i.fields.op = i.opcode.byte := by
  cases i <;> rfl

/-- Well-formed fields with a row's opcode byte fit the row's format. -/
theorem Fields.fits_of_wellFormed {f : Fields} {o : Opcode} (hop : f.op = o.byte) (h : f.wellFormed = true) :
    f.fits o.format = true := by
  simpa only [Fields.wellFormed, hop, o.ofByte_byte] using h

/-- A command's word has its row's opcode byte and fits its row's format. -/
theorem Instr.encodedAs (i : Instr) : i.EncodedAs i.opcode.byte i.opcode.format := by
  obtain ⟨hfields, hwf⟩ := i.fieldsFit
  rw [Instr.EncodedAs, hfields]
  exact ⟨i.fields_op, Fields.fits_of_wellFormed i.fields_op hwf⟩

end Sys2Proof
end

section
/-! SUPPORT. The two ends of a command that checks its modulus first (60_exceptions.md R130, R131; 40_modmul.md R80, R81). -/

namespace Sys2Proof.Machine

open Sys2Proof

/-- A body that finds its modulus 0 reports code 7 and changes nothing else, whatever it would have done. -/
theorem finishCommand_modulus_zero {s : State} {m : Nat} (b : BodyEnd) (hm : m = 0) :
    finishCommand s (if m = 0 then .raises .zeroModulus s.entropy else b) =
      .next { s with err := 7, errlog := s.errlog ||| 0x80 } := by
  rw [if_pos hm]
  rfl

/-- A body whose modulus is not 0 ends as its remaining lines say. -/
theorem finishCommand_modulus_ne_zero {s : State} {m : Nat} (b : BodyEnd) (hm : m ≠ 0) :
    finishCommand s (if m = 0 then .raises .zeroModulus s.entropy else b) = finishCommand s b := by
  rw [if_neg hm]

/-- A body that writes its destination register stores 0 in ERR and changes nothing else. -/
theorem finishCommand_writeX (s : State) (r : Reg) (v : Nat) :
    finishCommand s (.completes (s.writeX r v)) = .next { s with x := s.x.set r v, err := 0 } := rfl

theorem exec_modred_eq (rd ra rm : Reg) (s : State) :
    exec (.modred rd ra rm) s = finishCommand s (if s.x[rm] = 0 then .raises .zeroModulus s.entropy
      else .completes (s.writeX rd (s.x[ra] % s.x[rm]))) := rfl

theorem exec_modmul_eq (rd ra rb rm : Reg) (s : State) :
    exec (.modmul rd ra rb rm) s = finishCommand s (if s.x[rm] = 0 then .raises .zeroModulus s.entropy
      else .completes (s.writeX rd (s.x[ra] * s.x[rb] % s.x[rm]))) := rfl

end Sys2Proof.Machine
end

section
/-! PROOFS. The statements about modular reduction and multiplication (40_modmul.md R80, R81). -/

namespace Sys2Proof.Machine

open Sys2Proof

/-- Settles O11: the check of the modulus decides the command's end, and a remainder is below its divisor. -/
theorem modredResult : Obligations.ModredResult := by
  unfold Obligations.ModredResult
  intro s d a m
  refine ⟨(Instr.modred d a m).encodedAs, fun hm => ?_, fun hm => ⟨Nat.mod_lt _ (Nat.pos_of_ne_zero hm), ?_⟩⟩
  · rw [exec_modred_eq, finishCommand_modulus_zero _ hm]
  · rw [exec_modred_eq, finishCommand_modulus_ne_zero _ hm, finishCommand_writeX]

/-- Settles O12: as for the reduction, with the exact product of natural numbers in place of the source. -/
theorem modmulResult : Obligations.ModmulResult := by
  unfold Obligations.ModmulResult
  intro s d a b m
  refine ⟨(Instr.modmul d a b m).encodedAs, fun hm => ?_, fun hm => ⟨Nat.mod_lt _ (Nat.pos_of_ne_zero hm), ?_⟩⟩
  · rw [exec_modmul_eq, finishCommand_modulus_zero _ hm]
  · rw [exec_modmul_eq, finishCommand_modulus_ne_zero _ hm, finishCommand_writeX]

end Sys2Proof.Machine
end

section
/-! PROOFS. The statement about modular exponentiation (41_modexp.md R91). -/

namespace Sys2Proof.Machine

open Sys2Proof

/-- MODEXP's square-and-multiply (41_modexp.md R92) enters as the exact power reduced. -/
theorem exec_modexp_eq (rd ra rb rm : Reg) (s : State) :
    exec (.modexp rd ra rb rm) s = finishCommand s (if s.x[rm] = 0 then .raises .zeroModulus s.entropy
      else .completes (s.writeX rd (s.x[ra] ^ s.x[rb] % s.x[rm]))) := by
  rw [← modPow_eq]
  rfl

/-- Settles O13: the check of the modulus decides the command's end, and what MODEXP writes is the exact power reduced. -/
theorem modexpResult : Obligations.ModexpResult := by
  unfold Obligations.ModexpResult
  intro s d a b m
  refine ⟨(Instr.modexp d a b m).encodedAs, fun hm => ?_, fun hm => ⟨Nat.mod_lt _ (Nat.pos_of_ne_zero hm), ?_⟩⟩
  · rw [exec_modexp_eq, finishCommand_modulus_zero _ hm]
  · rw [exec_modexp_eq, finishCommand_modulus_ne_zero _ hm, finishCommand_writeX]

end Sys2Proof.Machine
end

section
/-! PROOFS. The statement about the modular inverse (42_modinv.md R100, R101). -/

namespace Sys2Proof.Machine

open Sys2Proof

/-- A value coprime to the modulus has exactly one inverse in `[0, m)`, and `modInv` answers it (42_modinv.md R100). -/
theorem modInv_of_coprime {a m : Nat} (hm : m ≠ 0) (hg : Nat.gcd a m = 1) :
    ∃ d, modInv a m = some d ∧ d < m ∧ a * d % m = 1 % m ∧ ∀ d', d' < m → a * d' % m = 1 % m → d' = d := by
  have hsome : modInv a m ≠ none := fun hnone => (modInv_eq_none_iff a m).mp hnone hg
  obtain ⟨d, hd⟩ := Option.ne_none_iff_exists'.mp hsome
  obtain ⟨-, hlt, hinv⟩ := modInv_some (Nat.pos_of_ne_zero hm) hd
  exact ⟨d, hd, hlt, hinv, fun d' hlt' hinv' => inverse_unique hg hlt hlt' hinv hinv'⟩

theorem exec_modinv_eq (rd ra rm : Reg) (s : State) :
    exec (.modinv rd ra rm) s = finishCommand s (if s.x[rm] = 0 then .raises .zeroModulus s.entropy
      else (modInv s.x[ra] s.x[rm]).elim (.raises .noModularInverse s.entropy) fun d => .completes (s.writeX rd d)) := by
  simp only [exec, execModinv, State.readX]
  cases modInv s.x[ra] s.x[rm] <;> rfl

/-- Settles O14: the check of the modulus comes first, and then the Euclidean loop answers none for a source that is not
coprime to the modulus, and its unique inverse otherwise. -/
theorem modinvResult : Obligations.ModinvResult := by
  unfold Obligations.ModinvResult
  intro s d a m
  refine ⟨(Instr.modinv d a m).encodedAs, fun hm => ?_, fun hm hg => ?_, fun hm hg => ?_⟩
  · rw [exec_modinv_eq, finishCommand_modulus_zero _ hm]
  · have hnone : modInv s.x[a] s.x[m] = none := (modInv_eq_none_iff _ _).mpr hg
    rw [exec_modinv_eq, finishCommand_modulus_ne_zero _ hm, hnone]
    rfl
  · obtain ⟨v, hsome, hlt, hinv, huniq⟩ := modInv_of_coprime hm hg
    refine ⟨v, hlt, hinv, huniq, ?_⟩
    rw [exec_modinv_eq, finishCommand_modulus_ne_zero _ hm, hsome, Option.elim_some, finishCommand_writeX]

end Sys2Proof.Machine
end

section
/-! SUPPORT. The early verdicts of the primality test (43_primetest.md R110): no round is run, so nothing is drawn. -/

namespace Sys2Proof.Machine

open Sys2Proof

theorem isProbablePrime_of_lt_two {c : Nat} (rounds : Nat) (e : Entropy) (h : c < 2) :
    isProbablePrime rounds c e = (false, e) := if_pos h

theorem isProbablePrime_of_lt_four {c : Nat} (rounds : Nat) (e : Entropy) (h2 : 2 ≤ c) (h4 : c < 4) :
    isProbablePrime rounds c e = (true, e) := by
  rw [isProbablePrime, if_neg h2.not_gt, if_pos h4]

theorem isProbablePrime_of_even {c : Nat} (rounds : Nat) (e : Entropy) (h4 : 4 ≤ c) (heven : c % 2 = 0) :
    isProbablePrime rounds c e = (false, e) := by
  rw [isProbablePrime, if_neg (by omega), if_neg h4.not_gt, if_pos heven]

end Sys2Proof.Machine
end

section
/-! PROOFS. The statement about PRIMETEST (43_primetest.md R111). -/

namespace Sys2Proof.Machine

open Sys2Proof

/-- A body that ends with the verdict stores it in PRIME and 0 in ERR and changes nothing else but the port. -/
theorem finishCommand_setPrime (s : State) (v : Bool) (ent : Entropy) :
    finishCommand s (.completes (s.setPrime v ent)) = .next { s with primeFlag := v, entropy := ent, err := 0 } := rfl

theorem exec_primetest_eq (ra : Reg) (s : State) :
    exec (.primetest ra) s = finishCommand s (.completes (s.setPrime
      (isProbablePrime s.cfg.mrRounds s.x[ra] s.entropy).1 (isProbablePrime s.cfg.mrRounds s.x[ra] s.entropy).2)) := rfl

/-- PRIMETEST on a value whose test draws nothing leaves the entropy port as it is. -/
theorem exec_primetest_undrawn {s : State} {ra : Reg} {v : Bool}
    (h : isProbablePrime s.cfg.mrRounds s.x[ra] s.entropy = (v, s.entropy)) :
    exec (.primetest ra) s = .next { s with primeFlag := v, err := 0 } := by
  rw [exec_primetest_eq, h, finishCommand_setPrime]

/-- Settles O22: PRIMETEST has no error path, so it ends with the verdict and what the test leaves of the port; the corner
cases are the early verdicts. -/
theorem primetestResult : Obligations.PrimetestResult := by
  unfold Obligations.PrimetestResult
  intro s a
  refine ⟨(Instr.primetest a).encodedAs, ?_, fun hlt => ?_, fun h23 => ?_, fun h4 heven => ?_⟩
  · rw [exec_primetest_eq, finishCommand_setPrime]
  · exact exec_primetest_undrawn (isProbablePrime_of_lt_two _ _ hlt)
  · exact exec_primetest_undrawn (isProbablePrime_of_lt_four _ _ (by omega) (by omega))
  · exact exec_primetest_undrawn (isProbablePrime_of_even _ _ h4 heven)

end Sys2Proof.Machine
end

section
/-! SUPPORT. The two ends of a command that needs the key (44_rsa_engine.md R121, R122; 60_exceptions.md R131), and the
bodies of the two such commands with the exact power in place of the engine's square-and-multiply. -/

namespace Sys2Proof.Machine

open Sys2Proof

/-- A body that finds no key reports code 8 and changes nothing else, whatever it would have done. -/
theorem finishCommand_key_absent {s : State} (b : BodyEnd) (hs : s.engine = .uninitialized) :
    finishCommand s (if s.engine ≠ .keyGenerated then .raises .invalidState s.entropy else b) =
      .next { s with err := 8, errlog := s.errlog ||| 0x100 } := by
  rw [if_pos (by rw [hs]; decide)]
  rfl

/-- A body that finds a key ends as its remaining lines say. -/
theorem finishCommand_key_present {s : State} (b : BodyEnd) (hs : s.engine = .keyGenerated) :
    finishCommand s (if s.engine ≠ .keyGenerated then .raises .invalidState s.entropy else b) = finishCommand s b := by
  rw [if_neg (not_not_intro hs)]

/-- An error raised before any draw reports its code and changes nothing else. -/
theorem finishCommand_raises_undrawn (s : State) (k : ErrorKind) :
    finishCommand s (.raises k s.entropy) = .next (s.raiseError k) := rfl

theorem exec_encrypt_eq (rd : Reg) (imm8 : BitVec 8) (s : State) :
    exec (.encrypt rd imm8) s = finishCommand s (if s.engine ≠ .keyGenerated then .raises .invalidState s.entropy
      else if imm8.toNat ≥ s.keyN then .raises .messageByteTooLarge s.entropy
      else .completes (s.writeX rd (imm8.toNat ^ s.keyE % s.keyN))) := by
  rw [← modPow_eq]
  rfl

theorem exec_decrypt_eq (rd ra : Reg) (s : State) :
    exec (.decrypt rd ra) s = finishCommand s (if s.engine ≠ .keyGenerated then .raises .invalidState s.entropy
      else if s.x[ra] ^ s.keyD % s.keyN ≥ 256 then .raises .decryptedValueOutOfRange s.entropy
      else .completes (s.writeX rd (s.x[ra] ^ s.keyD % s.keyN))) := by
  rw [← modPow_eq]
  rfl

end Sys2Proof.Machine
end

section
/-! PROOFS. The statements about ENCRYPT and DECRYPT (44_rsa_engine.md R121, R122). -/

namespace Sys2Proof.Machine

open Sys2Proof

/-- Settles O31: the check of the key and then the byte's comparison with `N` decide the command's end; a byte below `N`
makes `N` positive, so the remainder is below it. -/
theorem encryptResult : Obligations.EncryptResult := by
  unfold Obligations.EncryptResult
  intro s d imm8
  refine ⟨(Instr.encrypt d imm8).encodedAs, fun hs => ?_, fun hs hge => ?_, fun hs hlt => ⟨Nat.mod_lt _ hlt.pos, ?_⟩⟩
  · rw [exec_encrypt_eq, finishCommand_key_absent _ hs]
  · rw [exec_encrypt_eq, finishCommand_key_present _ hs, if_pos hge, finishCommand_raises_undrawn]
    rfl
  · rw [exec_encrypt_eq, finishCommand_key_present _ hs, if_neg hlt.not_ge, finishCommand_writeX]

/-- Settles O32: the check of the key and then the power's comparison with 256 decide the command's end; no case asks how
the unit compares with `N`. -/
theorem decryptResult : Obligations.DecryptResult := by
  unfold Obligations.DecryptResult
  intro s d a
  refine ⟨(Instr.decrypt d a).encodedAs, fun hs => ?_, fun hs hge => ?_, fun hs hlt => ?_⟩
  · rw [exec_decrypt_eq, finishCommand_key_absent _ hs]
  · rw [exec_decrypt_eq, finishCommand_key_present _ hs, if_pos hge, finishCommand_raises_undrawn]
    rfl
  · rw [exec_decrypt_eq, finishCommand_key_present _ hs, if_neg hlt.not_ge, finishCommand_writeX]

end Sys2Proof.Machine
end

section
/-! SUPPORT. The index of an operand register's limb read back from the map (20_memory.md R42), and what a host access that
runs no command can change (60_exceptions.md R141). -/

namespace Sys2Proof.Machine

open Sys2Proof

theorem windowTarget_limbX_eq {n i : Nat} {j : Reg} (h : windowTarget n = .limbX j i) : n = 0x4000 + 0x400 * j.val + i := by
  obtain ⟨hlow, hhigh⟩ := windowTarget_limbX_range h
  unfold windowTarget at h
  split_ifs at h
  cases h
  have hj : (Fin.ofNat 8 ((n - 0x4000) / 0x400)).val = (n - 0x4000) / 0x400 := Nat.mod_eq_of_lt (by omega)
  omega

/-- An index the map gives to a limb of an operand register names that register and limb. -/
theorem portTarget_limbX_toNat {idx : Index} {i : Nat} {j : Reg} (h : portTarget idx = .limbX j i) :
    idx.toNat = 0x4000 + 0x400 * j.val + i := by
  have hrange := portTarget_limbX_range h
  rw [portTarget_eq_windowTarget (by omega)] at h
  exact windowTarget_limbX_eq h

end Sys2Proof.Machine
end

section
/-! SUPPORT. The two ways a command can end (60_exceptions.md R131, R132) and what it does to the count of draws
(20_memory.md R54 (c)). -/

namespace Sys2Proof.Machine

open Sys2Proof

/-- A command that succeeded stores 0 in ERR and leaves ERRLOG and CMD (60_exceptions.md R131 step 4). -/
def Succeeded (s t : State) : Prop := t.err = 0 ∧ t.errlog = s.errlog ∧ t.cmd = s.cmd

theorem exec_failed_or_succeeded {i : Instr} {s t : State} (h : exec i s = .next t) : Failed s t ∨ Succeeded s t := by
  obtain hfail | ⟨rd, ⟨v, -, rfl⟩, -⟩ | ⟨ra, v, ent, -, rfl⟩ | ⟨bits, n, e, d, ent, -, -, -, -, rfl⟩ := exec_cases h
  · exact .inl hfail
  all_goals exact .inr ⟨rfl, rfl, rfl⟩

/-- An illegal word is an error raised before any draw (60_exceptions.md R131 step 2). -/
theorem failed_illegalCommand (s : State) : Failed s (s.raiseError .illegalCommand) :=
  ⟨.illegalCommand, s.entropy, by decide, rfl⟩

theorem ErrorKind.code_ne_five {k : ErrorKind} (h : k ≠ .invalidUtf8Output) : k.code ≠ 5 := by
  cases k
  case invalidUtf8Output => exact absurd rfl h
  all_goals decide

theorem ErrorKind.toNat_ofNat_code (k : ErrorKind) : (BitVec.ofNat 8 k.code).toNat = k.code := by
  have hrange := k.code_range
  rw [BitVec.toNat_ofNat, Nat.mod_eq_of_lt (by omega)]

/-- A failed command's code, and the only two registers it changed (60_exceptions.md R132). -/
theorem Failed.code_and_arch {s t : State} (h : Failed s t) :
    ∃ c, 1 ≤ c ∧ c ≤ 9 ∧ c ≠ 5 ∧ t.err.toNat = c ∧
      t.toArch = { s.toArch with err := t.err, errlog := s.errlog ||| (1#32 <<< c) } := by
  obtain ⟨k, ent, hk, rfl⟩ := h
  exact ⟨k.code, k.code_range.1, k.code_range.2, k.code_ne_five hk, k.toNat_ofNat_code, rfl⟩

/-! ## Draws -/

/-- What a body leaves of the entropy port. -/
def BodyEnd.port : BodyEnd → Entropy
  | .completes u => u.entropy
  | .raises _ ent => ent

/-- The end of a command hands over the port its body left. -/
theorem finishCommand_entropy {s t : State} {b : BodyEnd} (h : finishCommand s b = .next t) : t.entropy = b.port := by
  obtain ⟨u, rfl, rfl⟩ | ⟨k, ent, rfl, rfl⟩ := finishCommand_cases h <;> rfl

/-- GENERATE's search leaves its own port, whether or not it found a key. -/
theorem generateKey_port (k : Nat) (s : State) :
    (generateKey k s).port = (keySearch s.cfg.mrRounds k (s.cfg.tryLimit + 1) s.cfg.tryLimit s.entropy).2 := by
  rcases hks : keySearch s.cfg.mrRounds k (s.cfg.tryLimit + 1) s.cfg.tryLimit s.entropy with ⟨_ | ⟨n, e, d⟩, ent⟩
  · rw [generateKey_none hks]
    rfl
  · rw [generateKey_some hks]
    rfl

/-- A command that neither tests nor searches draws nothing (20_memory.md R54 (c)). -/
theorem exec_entropy_of_undrawn {i : Instr} {s t : State} (h : exec i s = .next t) (hp : i.opcode ≠ .primetest)
    (hg : i.opcode ≠ .generate) : t.entropy = s.entropy := by
  cases i
  case primetest => exact absurd rfl hp
  case generate => exact absurd rfl hg
  case modinv =>
    rw [finishCommand_entropy h]
    split
    · rfl
    · split <;> rfl
  case encrypt | decrypt =>
    rw [finishCommand_entropy h]
    split_ifs <;> rfl
  case modred | modmul | modexp =>
    rw [finishCommand_entropy h]
    split <;> rfl

theorem exec_generate_taken_le {bits : BitVec 16} {s t : State} (h : exec (.generate bits) s = .next t) :
    s.entropy.taken ≤ t.entropy.taken := by
  rw [finishCommand_entropy h]
  split_ifs
  · exact le_rfl
  · exact le_rfl
  · exact le_rfl
  · rw [generateKey_port]
    exact keySearch_taken_le _ _ _ _ _

/-- No command gives a draw back. -/
theorem exec_taken_le {i : Instr} {s t : State} (h : exec i s = .next t) : s.entropy.taken ≤ t.entropy.taken := by
  cases i
  case primetest ra =>
    rw [exec_primetest_eq] at h
    rw [finishCommand_entropy h]
    exact isProbablePrime_taken_le _ _ _
  case generate bits => exact exec_generate_taken_le h
  all_goals exact (congrArg Entropy.taken (exec_entropy_of_undrawn h (by simp [Instr.opcode]) (by simp [Instr.opcode]))).ge

/-- GENERATE with no key and a legal size: the port is what the search leaves, and a failed search has drawn every candidate
(43_primetest.md R113, 44_rsa_engine.md R120). -/
theorem exec_generate_search_draws {s t : State} {bits : BitVec 16} (h : exec (.generate bits) s = .next t)
    (hu : s.engine = .uninitialized) (he : bits.toNat % 2 = 0) (h4 : 4 ≤ bits.toNat) (hW : bits.toNat ≤ s.cfg.W) :
    t.entropy = (keySearch s.cfg.mrRounds (bits.toNat / 2) (s.cfg.tryLimit + 1) s.cfg.tryLimit s.entropy).2 ∧
    (t.err ≠ 0 → s.entropy.taken + s.cfg.tryLimit * ((bits.toNat / 2 + 31) / 32) ≤ t.entropy.taken) := by
  replace h : finishCommand s (generateKey (bits.toNat / 2) s) = .next t := (execGenerate_search hu he h4 hW).symm.trans h
  have hport := (finishCommand_entropy h).trans (generateKey_port _ s)
  refine ⟨hport, fun herr => ?_⟩
  rcases hks : keySearch s.cfg.mrRounds (bits.toNat / 2) (s.cfg.tryLimit + 1) s.cfg.tryLimit s.entropy with
    ⟨_ | ⟨n, e, d⟩, ent⟩
  · rw [hport, hks]
    exact keySearch_none_taken (by omega) (Nat.lt_succ_self _) hks
  · rw [generateKey_some hks] at h
    cases h
    exact absurd rfl herr

/-- Every write to CMD ends in a next state, with the word in CMD: the command failed or it succeeded, and no draw is given
back (60_exceptions.md R131). -/
theorem step_writeCommand {s : State} {w : Word} {rest : List HostEvent} (h : s.pending = .write cmdIndex w :: rest) :
    ∃ t, step s = .next t ∧ s.entropy.taken ≤ t.entropy.taken ∧
      (Failed ((s.setPending rest).setCmd w) t ∨ Succeeded ((s.setPending rest).setCmd w) t) := by
  cases hd : decode w with
  | illegal => exact ⟨_, step_illegal h hd, le_rfl, .inl (failed_illegalCommand _)⟩
  | command i =>
    obtain ⟨t, ht⟩ := exec_next i ((s.setPending rest).setCmd w)
    exact ⟨t, (step_command h hd).trans ht, (exec_taken_le ht :), exec_failed_or_succeeded ht⟩

end Sys2Proof.Machine
end

section
/-! PROOFS. The statements about errors and the command envelope (60_exceptions.md R132, R141). -/

namespace Sys2Proof.Machine

open Sys2Proof

/-- Settles O9: a command's end is a failure, which reports its code and touches nothing else, or a success; the draws are
those of the command that was run. -/
theorem failingCommandsArePrecise : Obligations.FailingCommandsArePrecise := by
  unfold Obligations.FailingCommandsArePrecise
  intro s w rest hwrite
  obtain ⟨t, hstep, htaken, hend⟩ := step_writeCommand hwrite
  refine ⟨t, hstep, ?_, htaken, ?_, fun bits hd => (exec_generate_search_draws ((step_command hwrite hd).symm.trans hstep) :)⟩
  · obtain hfail | ⟨-, -, hcmd⟩ := hend
    · obtain ⟨c, -, -, -, -, harch⟩ := hfail.code_and_arch
      exact congrArg Arch.cmd harch
    · exact hcmd
  · obtain hfail | ⟨herr, herrlog, -⟩ := hend
    · exact .inr hfail.code_and_arch
    · exact .inl ⟨herr, herrlog⟩

/-- Settles O41: a read only hands over a word, and a write outside CMD is ignored or sets a limb of the operand register
its index names. -/
theorem hostAccessesRaiseNothing : Obligations.HostAccessesRaiseNothing := by
  unfold Obligations.HostAccessesRaiseNothing
  rintro s ev rest hev (⟨idx, rfl⟩ | ⟨idx, v, rfl, hidx⟩)
  · exact ⟨_, step_read hev, rfl, rfl, .inl rfl⟩
  · refine ⟨_, step_portWrite hev (ne_cmdIndex hidx), ?_⟩
    obtain hignored | ⟨j, i, htarget, hlimb, hset⟩ := portWrite_cases (s.setPending rest) idx v
    · rw [hignored]
      exact ⟨rfl, rfl, .inl rfl⟩
    · rw [hset]
      exact ⟨rfl, rfl, .inr ⟨idx, v, j, i, _, rfl, portTarget_limbX_toNat htarget, hlimb, rfl⟩⟩

end Sys2Proof.Machine
end

section
/-! SUPPORT. A key, once generated, stays until reset (10_state.md R23, 70_reset_and_hazards.md R150): no host access and no
command leads from `KeyGenerated` back. -/

namespace Sys2Proof.Machine

open Sys2Proof

theorem State.resetMau_toArch (s : State) : s.resetMau.toArch = Arch.reset := rfl

theorem State.resetOf_toArch (c : Config) : (State.resetOf c).toArch = Arch.reset := rfl

@[simp] theorem portWrite_engine (s : State) (idx : Index) (v : Word) : (portWrite s idx v).engine = s.engine := by
  obtain hignored | ⟨j, i, -, -, hset⟩ := portWrite_cases s idx v
  · rw [hignored]
  · rw [hset, State.writeX_engine]

/-- Only GENERATE's success writes STATE, and what it writes is `KeyGenerated` (44_rsa_engine.md R120). -/
theorem exec_keeps_keyGenerated {i : Instr} {s t : State} (h : exec i s = .next t) (hs : s.engine = .keyGenerated) :
    t.engine = .keyGenerated := by
  obtain ⟨k, ent, -, rfl⟩ | ⟨rd, ⟨v, -, rfl⟩, -⟩ | ⟨ra, v, ent, -, rfl⟩ | ⟨bits, n, e, d, ent, -, -, -, -, rfl⟩ := exec_cases h
  · simpa using hs
  · simpa using hs
  · simpa using hs
  · rfl

theorem step_keeps_keyGenerated_or_reset {s t : State} (h : step s = .next t) (hs : s.engine = .keyGenerated) :
    t.engine = .keyGenerated ∨ ∃ rest, s.pending = .reset :: rest := by
  obtain ⟨-, rfl⟩ | ⟨idx, rest, -, rfl⟩ | ⟨rest, hreset, -⟩ | ⟨idx, v, rest, -, -, rfl⟩ | ⟨w, rest, -, -, rfl⟩ |
    ⟨w, i, rest, -, -, hexec⟩ := step_cases h
  · exact .inl hs
  · exact .inl hs
  · exact .inr ⟨rest, hreset⟩
  · exact .inl (by simpa using hs)
  · exact .inl hs
  · exact .inl (exec_keeps_keyGenerated hexec hs)

end Sys2Proof.Machine
end

section
/-! PROOFS. The statement about reset (70_reset_and_hazards.md R150). -/

namespace Sys2Proof.Machine

open Sys2Proof

/-- Settles O51: a reset overwrites the architectural state whole and nothing else, and every other step keeps a generated
key. -/
theorem resetStartsANewInstance : Obligations.ResetStartsANewInstance := by
  unfold Obligations.ResetStartsANewInstance
  refine ⟨fun s rest hreset => ⟨step_reset hreset, fun t c hstep => ?_⟩, fun s t hstep hs ht => ?_⟩
  · rw [step_reset hreset] at hstep
    cases hstep
    rw [State.resetMau_toArch, State.resetOf_toArch]
  · obtain hkept | hreset := step_keeps_keyGenerated_or_reset hstep hs
    · rw [ht] at hkept
      cases hkept
    · exact hreset

end Sys2Proof.Machine
end

section
/-! SUPPORT. A command's word and the command a word's fields name are inverse to each other (30_encoding.md R61, R62, R71),
and a word as the sum of its fields (R69). -/

namespace Sys2Proof

/-! ## The operands of a command and its fields -/

/-- `bits16` overlays `rb`, `rm` and `imm8` (30_encoding.md R61). -/
theorem bits16_eq_append (cw : Word) :
    cw.extractLsb' 0 16 = (fieldsOf cw).rb ++ (fieldsOf cw).rm ++ (fieldsOf cw).imm8 := by
  simp only [fieldsOf, BitVec.extractLsb'_append_extractLsb'_eq_extractLsb']

theorem append_fields_bits16 (bits : BitVec 16) :
    bits.extractLsb' 12 4 ++ bits.extractLsb' 8 4 ++ bits.extractLsb' 0 8 = bits := by
  simp only [BitVec.extractLsb'_append_extractLsb'_eq_extractLsb', BitVec.extractLsb'_eq_self]

theorem fieldsOf_encode (i : Instr) : fieldsOf (encode i) = i.fields := fieldsOf_word _

/-- The fields of a command's word name its operands again. -/
theorem Instr.commandOf_encode (i : Instr) : i.opcode.commandOf (encode i) = i := by
  cases i
  case generate bits =>
    simp only [Instr.opcode, Opcode.commandOf, bits16_eq_append, fieldsOf_encode, Instr.fields]
    rw [append_fields_bits16]
  all_goals simp only [Instr.opcode, Opcode.commandOf, fieldsOf_encode, Instr.fields, regOf_specOf]

theorem Fields.eta (f : Fields) : Fields.mk f.op f.rd f.ra f.rb f.rm f.imm8 = f := rfl

/-- The immediate of GENERATE is spread over the fields it overlays. -/
theorem Instr.fields_generate_bits16 (cw : Word) : (Instr.generate (cw.extractLsb' 0 16)).fields =
    ⟨0x10, 0, 0, (fieldsOf cw).rb, (fieldsOf cw).rm, (fieldsOf cw).imm8⟩ := by
  simp [Instr.fields, fieldsOf, BitVec.extractLsb'_extractLsb'_of_le]

/-- The command a word's fields name is encoded with those fields, when they fit the row's format: the fields the format does
not use are zero (30_encoding.md R62, R66). -/
theorem Opcode.fields_commandOf {cw : Word} {o : Opcode} (hop : (fieldsOf cw).op = o.byte)
    (hfit : (fieldsOf cw).fits o.format = true) : (o.commandOf cw).fields = fieldsOf cw := by
  refine Eq.trans ?_ (Fields.eta (fieldsOf cw))
  rw [hop]
  cases o
  case generate =>
    simp only [Opcode.format, Fields.fits, Bool.and_eq_true, beq_iff_eq] at hfit
    rw [hfit.1, hfit.2]
    exact Instr.fields_generate_bits16 cw
  all_goals
    simp only [Opcode.format, Fields.fits, namesReg_eq_isReg, Bool.and_eq_true, beq_iff_eq] at hfit
    simp [Opcode.commandOf, Instr.fields, Opcode.byte, specOf_regOf, hfit]

/-- A word that decodes has the opcode byte of the command's row, fits its format, and names its operands. -/
theorem decode_command_inv {cw : Word} {i : Instr} (h : decode cw = .command i) :
    (fieldsOf cw).op = i.opcode.byte ∧ (fieldsOf cw).fits i.opcode.format = true ∧ i = i.opcode.commandOf cw := by
  obtain ⟨hop, hfit⟩ := (decode_opcode_iff cw i.opcode).mp ⟨i, h, rfl⟩
  rw [decode_of_op hop, if_pos hfit] at h
  exact ⟨hop, hfit, (Decoded.command.inj h).symm⟩

/-! ## A word as a number -/

theorem toNat_append_eq_add {n m : Nat} (x : BitVec n) (y : BitVec m) :
    (x ++ y).toNat = x.toNat * 2 ^ m + y.toNat := by
  rw [BitVec.toNat_append, ← Nat.shiftLeft_add_eq_or_of_lt y.isLt, Nat.shiftLeft_eq]

theorem specOf_toNat (r : Reg) : (specOf r).toNat = r.val := by
  revert r; decide

/-- A command's word is the sum of its fields at their places (30_encoding.md R61). -/
theorem encode_toNat (i : Instr) : (encode i).toNat =
    i.fields.op.toNat * 2 ^ 24 + i.fields.rd.toNat * 2 ^ 20 + i.fields.ra.toNat * 2 ^ 16 + i.fields.rb.toNat * 2 ^ 12 +
      i.fields.rm.toNat * 2 ^ 8 + i.fields.imm8.toNat := by
  simp only [encode, Fields.word, toNat_append_eq_add]
  omega

theorem encode_generate_toNat (bits : BitVec 16) : (encode (.generate bits)).toNat = 0x10000000 + bits.toNat := by
  have hbits := congrArg BitVec.toNat (append_fields_bits16 bits)
  simp only [toNat_append_eq_add] at hbits
  simp only [encode_toNat, Instr.fields, BitVec.ofNat_eq_ofNat, BitVec.reduceToNat]
  rw [← hbits]
  ring

end Sys2Proof
end

section
/-! PROOFS. The statements about the decoder and the encoder (30_encoding.md R61 to R71). -/

namespace Sys2Proof.Machine

open Sys2Proof

/-- Settles O1: a command's word has well-formed fields, so it decodes to the command they name, which is the command. -/
theorem decodeInvertsEncode : Obligations.DecodeInvertsEncode := by
  unfold Obligations.DecodeInvertsEncode
  intro i
  obtain ⟨hop, hfit⟩ := i.encodedAs
  rw [decode_of_op hop, if_pos hfit, i.commandOf_encode]

/-- Settles O2: the command a word decodes to is encoded with the word's own fields. -/
theorem encodeInvertsDecode : Obligations.EncodeInvertsDecode := by
  unfold Obligations.EncodeInvertsDecode
  intro w i h
  obtain ⟨hop, hfit, hi⟩ := decode_command_inv h
  have hfields : i.fields = fieldsOf w := by
    rw [hi]
    exact Opcode.fields_commandOf hop hfit
  rw [encode, hfields, word_fieldsOf]

/-- Settles O4: a known opcode byte leaves the decoder the test of its format, and every other word is illegal. -/
theorem commandsAreWellFormedFields : Obligations.CommandsAreWellFormedFields := by
  unfold Obligations.CommandsAreWellFormedFields
  intro w
  constructor
  · intro hdec
    by_contra hill
    exact hdec (decode_of_not_wellFormed (Bool.eq_false_of_not_eq_true hill))
  · intro hwf
    cases hrow : Opcode.ofByte (fieldsOf w).op with
    | none => simp [Fields.wellFormed, hrow] at hwf
    | some o =>
      have hop := (Opcode.byte_of_ofByte hrow).symm
      rw [decode_of_op hop, if_pos (Fields.fits_of_wellFormed hop hwf)]
      exact Decoded.noConfusion

/-- Settles O5: each command's fields put into the sum. -/
theorem assemblerEncodings : Obligations.AssemblerEncodings := by
  unfold Obligations.AssemblerEncodings
  refine ⟨?_, ?_, ?_, ?_, ?_, encode_generate_toNat, ?_, ?_⟩
  all_goals
    intros
    simp [encode_toNat, Instr.fields, specOf_toNat]

/-- Settles O6, by running the decoder on the eight words. -/
theorem exampleWordsDecode : Obligations.ExampleWordsDecode := by
  unfold Obligations.ExampleWordsDecode
  decide

end Sys2Proof.Machine
end

section
/-! SUPPORT. The machine's invariant under each named update of the state, and then under every command, host access and step
(10_state.md R21, R22, R30, R31, R37). -/

namespace Sys2Proof.Machine

open Sys2Proof

/-! ## Updates that touch nothing the invariant speaks of -/

theorem State.Inv.setPending {s : State} (h : s.Inv) (evs : List HostEvent) : (s.setPending evs).Inv := h
theorem State.Inv.pushReply {s : State} (h : s.Inv) (w : Word) : (s.pushReply w).Inv := h
theorem State.Inv.setCmd {s : State} (h : s.Inv) (v : Word) : (s.setCmd v).Inv := h
theorem State.Inv.setEntropy {s : State} (h : s.Inv) (ent : Entropy) : (s.setEntropy ent).Inv := h
theorem State.Inv.setPrime {s : State} (h : s.Inv) (v : Bool) (ent : Entropy) : (s.setPrime v ent).Inv := h

/-! ## The error registers -/

theorem ErrorKind.raisedCode {k : ErrorKind} (h : k ≠ .invalidUtf8Output) : RaisedCode k.code :=
  ⟨k.code_range.1, k.code_range.2, k.code_ne_five h⟩

/-- The word of an error kind has the one bit numbered by its code. -/
theorem ErrorKind.bit_getLsbD (k : ErrorKind) (c : Nat) : k.bit.getLsbD c = decide (k.code = c) := by
  have hrange := k.code_range
  have hlt : k.code < 32 := by omega
  rw [ErrorKind.bit, ← BitVec.twoPow_eq, BitVec.getLsbD_twoPow, decide_eq_true hlt, Bool.true_and]

/-- FAIL adds the code's own bit to ERRLOG (60_exceptions.md R131). -/
theorem State.raiseError_errlog_getLsbD (s : State) (k : ErrorKind) (c : Nat) :
    (s.raiseError k).errlog.getLsbD c = (s.errlog.getLsbD c || decide (k.code = c)) := by
  rw [State.raiseError_errlog, BitVec.getLsbD_or, k.bit_getLsbD]

theorem State.raiseError_err_toNat (s : State) (k : ErrorKind) : (s.raiseError k).err.toNat = k.code :=
  k.toNat_ofNat_code

theorem State.ErrorsWellFormed.raiseError {s : State} (h : s.ErrorsWellFormed) {k : ErrorKind}
    (hk : k ≠ .invalidUtf8Output) : (s.raiseError k).ErrorsWellFormed := by
  obtain ⟨-, hlog, -⟩ := h
  refine ⟨.inr ?_, fun c hc => ?_, fun _ => ?_⟩
  · rw [s.raiseError_err_toNat]
    exact ErrorKind.raisedCode hk
  · rw [s.raiseError_errlog_getLsbD, Bool.or_eq_true, decide_eq_true_eq] at hc
    obtain hold | rfl := hc
    · exact hlog c hold
    · exact ErrorKind.raisedCode hk
  · rw [s.raiseError_errlog_getLsbD, s.raiseError_err_toNat, decide_eq_true rfl, Bool.or_true]

theorem State.Inv.raiseError {s : State} (h : s.Inv) {k : ErrorKind} (hk : k ≠ .invalidUtf8Output) :
    (s.raiseError k).Inv := by
  obtain ⟨hcfg, hfit, hkey, herr⟩ := h
  exact ⟨hcfg, hfit, hkey, herr.raiseError hk⟩

theorem State.Inv.succeed {s : State} (h : s.Inv) : s.succeed.Inv := by
  obtain ⟨hcfg, hfit, hkey, -, hlog, -⟩ := h
  exact ⟨hcfg, hfit, hkey, .inl rfl, hlog, absurd rfl⟩

/-! ## The operand registers -/

theorem State.Inv.writeX {s : State} (h : s.Inv) (r : Reg) {v : Nat} (hv : v < 2 ^ s.cfg.W) : (s.writeX r v).Inv := by
  obtain ⟨hcfg, ⟨hx, hkeys⟩, hkey, herr⟩ := h
  refine ⟨hcfg, ⟨fun q => ?_, hkeys⟩, hkey, herr⟩
  by_cases hq : q = r
  · rw [hq, State.readX_writeX_same]
    exact hv
  · rw [State.readX_writeX_ne _ _ hq]
    exact hx q

/-! ## The key registers -/

/-- `N` of a key of two `k`-bit numbers has `2k - 1` or `2k` bits (44_rsa_engine.md R120). -/
theorem State.KeyFrom.keyN_bounds {s : State} {p q k : Nat} (h : s.KeyFrom p q k) :
    2 ^ (2 * k - 2) ≤ s.keyN ∧ s.keyN < 2 ^ (2 * k) := by
  obtain ⟨-, ⟨hk, -⟩, ⟨hp, hp'⟩, ⟨hq, hq'⟩, -, -, hN, -⟩ := h
  have hlow : 2 * k - 2 = (k - 1) + (k - 1) := by omega
  rw [hN, hlow, two_mul, Nat.pow_add, Nat.pow_add]
  exact ⟨Nat.mul_le_mul hp hq, Nat.mul_lt_mul'' hp' hq'⟩

theorem State.KeyFrom.keyD_lt {s : State} {p q k : Nat} (h : s.KeyFrom p q k) : s.keyD < s.keyN := by
  obtain ⟨-, -, -, -, -, -, hN, -, hD, -⟩ := h
  rw [hN]
  exact hD.trans_le (Nat.mul_le_mul (Nat.sub_le p 1) (Nat.sub_le q 1))

theorem State.KeyFrom.keyE_eq {s : State} {p q k : Nat} (h : s.KeyFrom p q k) : s.keyE = 65537 := by
  obtain ⟨-, -, -, -, -, -, -, hE, -⟩ := h
  exact hE

/-- Each register of a key holds a value of its width. -/
theorem State.KeyFrom.fits {s : State} {p q k : Nat} (h : s.KeyFrom p q k) (hcfg : s.cfg.Valid) :
    s.keyN < 2 ^ s.cfg.W ∧ s.keyE < 2 ^ s.cfg.W ∧ s.keyD < 2 ^ s.cfg.W := by
  obtain ⟨-, hN⟩ := h.keyN_bounds
  have hE := h.keyE_eq
  have hD := h.keyD_lt
  obtain ⟨-, ⟨-, hkW⟩, -⟩ := h
  replace hN := hN.trans_le (Nat.pow_le_pow_right two_pos hkW)
  refine ⟨hN, ?_, hD.trans hN⟩
  obtain ⟨⟨-, hW, -⟩, -⟩ := hcfg
  rw [hE]
  exact lt_of_lt_of_le (by norm_num) (Nat.pow_le_pow_right two_pos hW)

/-- The key the search found, once written, is made from the pair it found (10_state.md R37). -/
theorem State.setKey_keyFrom {s : State} {k bound left n e d : Nat} {ent ent' : Entropy} (hk : 2 ≤ k ∧ 2 * k ≤ s.cfg.W)
    (h : keySearch s.cfg.mrRounds k bound left ent = (some (n, e, d), ent')) :
    ∃ p q, (s.setKey n e d ent').KeyFrom p q k := by
  obtain ⟨p, q, hp, hq, hpa, hqa, hkey⟩ := keySearch_some (by omega) h
  have htwo : 2 ≤ 2 ^ (k - 1) := Nat.le_self_pow (by omega) 2
  obtain ⟨hne, hn, rfl, hd, hinv, hcop⟩ := keyOfPair_some (htwo.trans hp.1) (htwo.trans hq.1) hkey
  exact ⟨p, q, hne, hk, hp, hq, hpa, hqa, hn, rfl, hd, hinv, hcop⟩

theorem State.Inv.setKey {s : State} (h : s.Inv) {n e d p q k : Nat} {ent : Entropy}
    (hkey : (s.setKey n e d ent).KeyFrom p q k) : (s.setKey n e d ent).Inv := by
  obtain ⟨hcfg, ⟨hx, -⟩, -, herr⟩ := h
  exact ⟨hcfg, ⟨hx, hkey.fits hcfg⟩, ⟨nofun, fun _ => ⟨p, q, k, hkey⟩⟩, herr⟩

/-! ## Reset -/

/-- A state whose registers hold the reset values meets the invariant. -/
theorem State.Inv.of_reset {s : State} (hcfg : s.cfg.Valid) (harch : s.toArch = Arch.reset) : s.Inv := by
  obtain ⟨arch, cfg, ent, evs, ws⟩ := s
  subst harch
  have hx (r : Reg) : Arch.reset.x[r] = 0 := Vector.getElem_replicate r.isLt
  refine ⟨hcfg, ⟨fun r => (hx r).trans_lt ?_, ?_⟩, ⟨fun _ => ⟨rfl, rfl, rfl⟩, nofun⟩, .inl rfl, fun c hc => ?_, absurd rfl⟩
  · positivity
  · exact ⟨Nat.two_pow_pos _, Nat.two_pow_pos _, Nat.two_pow_pos _⟩
  · exact absurd hc (by simp [Arch.reset])

/-! ## Commands, host accesses and steps -/

theorem State.Inv.failed {s t : State} (h : s.Inv) (hfail : Failed s t) : t.Inv := by
  obtain ⟨k, ent, hk, rfl⟩ := hfail
  exact (h.setEntropy ent).raiseError hk

/-- What a command writes to its destination register fits it: a byte, or a residue of a value that fits (00_scope.md R7). -/
theorem State.Inv.wroteX {s t : State} (h : s.Inv) {rd : Reg} (hwrote : WroteX s t rd) : t.Inv := by
  obtain ⟨v, hv, rfl⟩ := hwrote
  refine (h.writeX rd ?_).succeed
  obtain ⟨⟨⟨-, hW, -⟩, -⟩, ⟨hx, hN, -⟩, -⟩ := h
  obtain hbyte | hresidue | ⟨m, hresidue⟩ := hv
  · calc v < 2 ^ 8 := hbyte
      _ ≤ 2 ^ s.cfg.W := Nat.pow_le_pow_right two_pos (by omega)
  · exact hresidue.trans hN
  · exact hresidue.trans (hx m)

theorem exec_keeps_inv {i : Instr} {s t : State} (h : s.Inv) (hexec : exec i s = .next t) : t.Inv := by
  obtain hfail | ⟨rd, hwrote, -⟩ | ⟨ra, v, ent, -, rfl⟩ | ⟨bits, n, e, d, ent, -, -, hk, hsearch, rfl⟩ := exec_cases hexec
  · exact h.failed hfail
  · exact h.wroteX hwrote
  · exact (h.setPrime v ent).succeed
  · obtain ⟨p, q, hkey⟩ := State.setKey_keyFrom hk hsearch
    exact (h.setKey hkey).succeed

/-- `W` is a whole number of limbs (00_scope.md R4). -/
theorem Config.W_eq_limbs {c : Config} (h : c.Valid) : c.W = 32 * c.limbs := by
  obtain ⟨⟨hmod, -, -⟩, -⟩ := h
  rw [Config.limbs]
  omega

theorem portWrite_keeps_inv {s : State} (h : s.Inv) (idx : Index) (v : Word) : (portWrite s idx v).Inv := by
  obtain hignored | ⟨j, i, -, hi, hset⟩ := portWrite_cases s idx v
  · rw [hignored]
    exact h
  · rw [hset]
    refine h.writeX j ?_
    obtain ⟨hcfg, ⟨hx, -⟩, -⟩ := h
    have hxj := hx j
    rw [Config.W_eq_limbs hcfg] at hxj ⊢
    exact setLimb_lt v hi hxj

theorem step_keeps_inv {s t : State} (h : s.Inv) (hstep : step s = .next t) : t.Inv := by
  obtain ⟨-, rfl⟩ | ⟨idx, rest, -, rfl⟩ | ⟨rest, -, rfl⟩ | ⟨idx, v, rest, -, -, rfl⟩ | ⟨w, rest, -, -, rfl⟩ |
    ⟨w, i, rest, -, -, hexec⟩ := step_cases hstep
  · exact h
  · exact (h.setPending rest).pushReply _
  · exact .of_reset h.1 rfl
  · exact portWrite_keeps_inv (h.setPending rest) idx v
  · exact (((h.setPending rest).setCmd w).raiseError (by decide))
  · exact exec_keeps_inv ((h.setPending rest).setCmd w) hexec

end Sys2Proof.Machine
end

section
/-! PROOFS. The invariant at reset and after every step (10_state.md). -/

namespace Sys2Proof.Machine

open Sys2Proof

/-- Settles O53: every update a step is made of keeps the invariant; the key a search finds fits because `N` has at most
`bits ≤ W` bits. -/
theorem everyStepKeepsInv : Obligations.EveryStepKeepsInv := by
  unfold Obligations.EveryStepKeepsInv
  exact fun _ _ => step_keeps_inv

/-- Settles O52: every register is zero, and the suggested parameters are legal. -/
theorem invHoldsAtReset : Obligations.InvHoldsAtReset := by
  unfold Obligations.InvHoldsAtReset
  exact ⟨fun _ hcfg => .of_reset hcfg rfl, .of_reset (by decide : Config.suggested.Valid) rfl⟩

end Sys2Proof.Machine
end

section
/-! SUPPORT. What a step leaves as it is and what it may change: the host's side of the ports, the key, PRIME and ERRLOG
(10_state.md R22, R23, R25, R31; 00_scope.md R10). -/

namespace Sys2Proof.Machine

open Sys2Proof

/-! ## The parameters and the host's events -/

theorem exec_cfg_pending {i : Instr} {s t : State} (h : exec i s = .next t) : t.cfg = s.cfg ∧ t.pending = s.pending := by
  obtain ⟨k, ent, -, rfl⟩ | ⟨rd, ⟨v, -, rfl⟩, -⟩ | ⟨ra, v, ent, -, rfl⟩ | ⟨bits, n, e, d, ent, -, -, -, -, rfl⟩ := exec_cases h
  all_goals exact ⟨rfl, rfl⟩

/-- A host write outside CMD changes the operand registers at most (60_exceptions.md R141). -/
theorem portWrite_eq_with_x (s : State) (idx : Index) (v : Word) : ∃ xs, portWrite s idx v = { s with x := xs } := by
  obtain hignored | ⟨j, i, -, -, hset⟩ := portWrite_cases s idx v
  · exact ⟨s.x, hignored⟩
  · exact ⟨_, hset⟩

/-- A step keeps the parameters and takes one event, if there is one (00_scope.md R10). -/
theorem step_cfg_pending {s t : State} (h : step s = .next t) : t.cfg = s.cfg ∧ t.pending = s.pending.drop 1 := by
  obtain ⟨hp, rfl⟩ | ⟨idx, rest, hp, rfl⟩ | ⟨rest, hp, rfl⟩ | ⟨idx, v, rest, hp, -, rfl⟩ | ⟨w, rest, hp, -, rfl⟩ |
    ⟨w, i, rest, hp, -, hexec⟩ := step_cases h
  · exact ⟨rfl, by rw [hp, List.drop_nil]⟩
  · exact ⟨rfl, by rw [hp]; rfl⟩
  · exact ⟨rfl, by rw [hp]; rfl⟩
  · obtain ⟨xs, hset⟩ := portWrite_eq_with_x (s.setPending rest) idx v
    rw [hset]
    exact ⟨rfl, by rw [hp]; rfl⟩
  · exact ⟨rfl, by rw [hp]; rfl⟩
  · obtain ⟨hcfg, hpending⟩ := exec_cfg_pending hexec
    exact ⟨hcfg, by rw [hpending, hp]; rfl⟩

/-- Every event but a reset inside a transaction has a next state (70_reset_and_hazards.md R158). -/
theorem step_next_or_resetInside (s : State) :
    (∃ t, step s = .next t) ∨ ∃ idx v rest, s.pending = .resetInside idx v :: rest := by
  match hp : s.pending with
  | [] => exact .inl ⟨_, step_idle hp⟩
  | .read idx :: rest => exact .inl ⟨_, step_read hp⟩
  | .reset :: rest => exact .inl ⟨_, step_reset hp⟩
  | .resetInside idx v :: rest => exact .inr ⟨idx, v, rest, rfl⟩
  | .write idx v :: rest =>
    by_cases hi : idx = cmdIndex
    · subst hi
      obtain ⟨t, ht, -⟩ := step_writeCommand hp
      exact .inl ⟨t, ht⟩
    · exact .inl ⟨_, step_portWrite hp hi⟩

/-! ## The key and STATE -/

/-- The key registers and STATE are as before. -/
def SameKey (s t : State) : Prop :=
  t.keyN = s.keyN ∧ t.keyE = s.keyE ∧ t.keyD = s.keyD ∧ t.engine = s.engine

/-- A key was generated in a state without one (44_rsa_engine.md R120). -/
def KeyGeneratedBy (s t : State) : Prop := s.engine = .uninitialized ∧ t.engine = .keyGenerated ∧ t.err = 0

theorem exec_key_cases {i : Instr} {s t : State} (h : exec i s = .next t) :
    SameKey s t ∨ ∃ bits, i = .generate bits ∧ KeyGeneratedBy s t := by
  obtain ⟨k, ent, -, rfl⟩ | ⟨rd, ⟨v, -, rfl⟩, -⟩ | ⟨ra, v, ent, -, rfl⟩ | ⟨bits, n, e, d, ent, rfl, hu, -, -, rfl⟩ :=
    exec_cases h
  · exact .inl ⟨rfl, rfl, rfl, rfl⟩
  · exact .inl ⟨rfl, rfl, rfl, rfl⟩
  · exact .inl ⟨rfl, rfl, rfl, rfl⟩
  · exact .inr ⟨bits, rfl, hu, rfl, rfl⟩

/-- A step keeps the key and STATE, or resets the MAU, or runs a GENERATE that makes a key (10_state.md R22, R23). -/
theorem step_key_cases {s t : State} (h : step s = .next t) :
    SameKey s t ∨
    (∃ rest, s.pending = .reset :: rest ∧ t.engine = .uninitialized) ∨
    (∃ w bits rest, s.pending = .write cmdIndex w :: rest ∧ decode w = .command (.generate bits) ∧ KeyGeneratedBy s t) := by
  obtain ⟨-, rfl⟩ | ⟨idx, rest, -, rfl⟩ | ⟨rest, hp, rfl⟩ | ⟨idx, v, rest, -, -, rfl⟩ | ⟨w, rest, -, -, rfl⟩ |
    ⟨w, i, rest, hp, hd, hexec⟩ := step_cases h
  · exact .inl ⟨rfl, rfl, rfl, rfl⟩
  · exact .inl ⟨rfl, rfl, rfl, rfl⟩
  · exact .inr (.inl ⟨rest, hp, rfl⟩)
  · obtain ⟨xs, hset⟩ := portWrite_eq_with_x (s.setPending rest) idx v
    rw [hset]
    exact .inl ⟨rfl, rfl, rfl, rfl⟩
  · exact .inl ⟨rfl, rfl, rfl, rfl⟩
  · obtain hsame | ⟨bits, rfl, hgen⟩ := exec_key_cases hexec
    · exact .inl hsame
    · exact .inr (.inr ⟨w, bits, rest, hp, hd, hgen⟩)

/-! ## PRIME -/

theorem exec_primeFlag_cases {i : Instr} {s t : State} (h : exec i s = .next t) :
    t.primeFlag = s.primeFlag ∨ ∃ ra, i = .primetest ra ∧ t.err = 0 := by
  obtain ⟨k, ent, -, rfl⟩ | ⟨rd, ⟨v, -, rfl⟩, -⟩ | ⟨ra, v, ent, hi, rfl⟩ | ⟨bits, n, e, d, ent, -, -, -, -, rfl⟩ :=
    exec_cases h
  · exact .inl rfl
  · exact .inl rfl
  · exact .inr ⟨ra, hi, rfl⟩
  · exact .inl rfl

/-- A step keeps PRIME, or resets the MAU, or runs a PRIMETEST (10_state.md R25). -/
theorem step_primeFlag_cases {s t : State} (h : step s = .next t) :
    t.primeFlag = s.primeFlag ∨ (∃ rest, s.pending = .reset :: rest) ∨
    (∃ w ra rest, s.pending = .write cmdIndex w :: rest ∧ decode w = .command (.primetest ra) ∧ t.err = 0) := by
  obtain ⟨-, rfl⟩ | ⟨idx, rest, -, rfl⟩ | ⟨rest, hp, rfl⟩ | ⟨idx, v, rest, -, -, rfl⟩ | ⟨w, rest, -, -, rfl⟩ |
    ⟨w, i, rest, hp, hd, hexec⟩ := step_cases h
  · exact .inl rfl
  · exact .inl rfl
  · exact .inr (.inl ⟨rest, hp⟩)
  · obtain ⟨xs, hset⟩ := portWrite_eq_with_x (s.setPending rest) idx v
    rw [hset]
    exact .inl rfl
  · exact .inl rfl
  · obtain hsame | ⟨ra, rfl, herr⟩ := exec_primeFlag_cases hexec
    · exact .inl hsame
    · exact .inr (.inr ⟨w, ra, rest, hp, hd, herr⟩)

/-! ## ERR and ERRLOG -/

/-- ERRLOG is as before, or an error was reported in it and in ERR (10_state.md R31). -/
def ErrlogStep (s t : State) : Prop :=
  t.errlog = s.errlog ∨ ∃ k : ErrorKind, t.errlog = s.errlog ||| k.bit ∧ t.err.toNat = k.code

theorem Failed.errlogStep {s t : State} (h : Failed s t) : ErrlogStep s t := by
  obtain ⟨k, ent, -, rfl⟩ := h
  exact .inr ⟨k, rfl, k.toNat_ofNat_code⟩

theorem exec_errlogStep {i : Instr} {s t : State} (h : exec i s = .next t) : ErrlogStep s t := by
  obtain hfail | ⟨-, hlog, -⟩ := exec_failed_or_succeeded h
  · exact hfail.errlogStep
  · exact .inl hlog

theorem step_errlogStep_or_reset {s t : State} (h : step s = .next t) :
    ErrlogStep s t ∨ ∃ rest, s.pending = .reset :: rest := by
  obtain ⟨-, rfl⟩ | ⟨idx, rest, -, rfl⟩ | ⟨rest, hp, rfl⟩ | ⟨idx, v, rest, -, -, rfl⟩ | ⟨w, rest, -, -, rfl⟩ |
    ⟨w, i, rest, -, -, hexec⟩ := step_cases h
  · exact .inl (.inl rfl)
  · exact .inl (.inl rfl)
  · exact .inr ⟨rest, hp⟩
  · obtain ⟨xs, hset⟩ := portWrite_eq_with_x (s.setPending rest) idx v
    rw [hset]
    exact .inl (.inl rfl)
  · exact .inl (failed_illegalCommand _).errlogStep
  · exact .inl (exec_errlogStep hexec :)

/-! ## Runs -/

theorem runSteps_of_step {s t : State} (h : step s = .next t) (n : Nat) : runSteps (n + 1) s = runSteps n t := by
  rw [runSteps, h]

/-- A run of events in scope never stops, takes one event a step, and keeps the invariant and the parameters
(00_scope.md R10, R11). -/
theorem runSteps_inv (n : Nat) : ∀ {s : State}, s.Inv → (∀ ev ∈ s.pending, ev.InScope) →
    ∃ t, runSteps n s = .next t ∧ t.Inv ∧ t.cfg = s.cfg ∧ t.pending = s.pending.drop n := by
  induction n with
  | zero => exact fun h _ => ⟨_, rfl, h, rfl, rfl⟩
  | succ n ih =>
    intro s h hscope
    obtain ⟨u, hu⟩ | ⟨idx, v, rest, hp⟩ := step_next_or_resetInside s
    · obtain ⟨hcfg, hpending⟩ := step_cfg_pending hu
      obtain ⟨t, ht, hinv, hcfg', hpending'⟩ := ih (step_keeps_inv h hu) fun ev hev =>
        hscope ev (List.mem_of_mem_drop (hpending ▸ hev))
      refine ⟨t, ?_, hinv, hcfg'.trans hcfg, ?_⟩
      · rw [runSteps_of_step hu, ht]
      · rw [hpending', hpending, List.drop_drop, Nat.add_comm]
    · exact absurd rfl (hscope (.resetInside idx v) (by rw [hp]; exact List.mem_cons_self) idx v)

end Sys2Proof.Machine
end

section
/-! PROOFS. The statements about every step of the machine (00_scope.md, 10_state.md, 60_exceptions.md,
70_reset_and_hazards.md). -/

namespace Sys2Proof.Machine

open Sys2Proof

/-- Settles O7: index 2 is the index of CMD. -/
theorem stepRunsTheDecodedCommand : Obligations.StepRunsTheDecodedCommand := by
  unfold Obligations.StepRunsTheDecodedCommand
  exact fun _ _ _ _ hwrite hd => step_command hwrite hd

/-- Settles O43: with no event a step is the identity. -/
theorem idleHoldsTheState : Obligations.IdleHoldsTheState := by
  unfold Obligations.IdleHoldsTheState
  exact fun _ => step_idle

/-- Settles O42: every event but one has a next state, and that one is refused. -/
theorem onlyAResetInsideIsRefused : Obligations.OnlyAResetInsideIsRefused := by
  unfold Obligations.OnlyAResetInsideIsRefused
  intro s
  obtain ⟨t, ht⟩ | ⟨idx, v, rest, hp⟩ := step_next_or_resetInside s
  · refine ⟨.inl ⟨t, ht⟩, fun href => ?_, fun ⟨idx, v, rest, hp⟩ => step_resetInside hp⟩
    rw [ht] at href
    cases href
  · exact ⟨.inr (step_resetInside hp), fun _ => ⟨idx, v, rest, hp⟩, fun _ => step_resetInside hp⟩

/-- Settles O54: the reset state meets the invariant, and every event in scope is taken by a step that keeps it. -/
theorem runsNeverStop : Obligations.RunsNeverStop := by
  unfold Obligations.RunsNeverStop
  intro c evs script n hcfg hscope
  exact runSteps_inv n (s := .runStart c evs script) (.of_reset hcfg rfl) hscope

/-- Settles O37: a step that keeps the key keeps STATE with it, and the two others are the ones named. -/
theorem stateChangesByGenerateOnly : Obligations.StateChangesByGenerateOnly := by
  unfold Obligations.StateChangesByGenerateOnly
  intro s t hstep hne
  obtain ⟨-, -, -, hsame⟩ | hreset | hgen := step_key_cases hstep
  · exact absurd hsame hne
  · exact .inl hreset
  · exact .inr hgen

/-- Settles O38: the steps that write the key are a reset and a GENERATE that makes one. -/
theorem keyIsImmutable : Obligations.KeyIsImmutable := by
  unfold Obligations.KeyIsImmutable
  intro s t hstep
  obtain ⟨hN, hE, hD, -⟩ | ⟨rest, hreset, -⟩ | hgen := step_key_cases hstep
  · exact .inl ⟨hN, hE, hD⟩
  · exact .inr (.inl ⟨rest, hreset⟩)
  · exact .inr (.inr hgen)

/-- Settles O39: a step that changes PRIME is a reset or a PRIMETEST. -/
theorem primeWrittenByPrimetestOnly : Obligations.PrimeWrittenByPrimetestOnly := by
  unfold Obligations.PrimeWrittenByPrimetestOnly
  intro s t hstep hne
  obtain hsame | hother := step_primeFlag_cases hstep
  · exact absurd hsame hne
  · exact hother

/-- Settles O40: a step but a reset adds at most the one bit of the code it stores in ERR. -/
theorem errlogOnlyGrows : Obligations.ErrlogOnlyGrows := by
  unfold Obligations.ErrlogOnlyGrows
  intro s t c hstep hnoreset
  obtain (hsame | ⟨k, hlog, herr⟩) | ⟨rest, hreset⟩ := step_errlogStep_or_reset hstep
  · rw [hsame]
    exact ⟨id, fun hclear hset => absurd hset (by rw [hclear]; decide)⟩
  · rw [hlog, herr, BitVec.getLsbD_or, k.bit_getLsbD]
    exact ⟨fun hset => by rw [hset, Bool.true_or], fun hclear hset => by simpa [hclear] using hset⟩
  · exact absurd hreset (hnoreset rest)

end Sys2Proof.Machine
end

section
/-! SUPPORT. What each command leaves as it is: the destination of a register command, GENERATE's two ends, and the primitives
under a change of the key (40_modmul.md R83, 43_primetest.md R111, 44_rsa_engine.md R120, R123). -/

namespace Sys2Proof.Machine

open Sys2Proof

/-! ## Destinations -/

/-- The operand register a command writes, if it has one (30_encoding.md R69). -/
def destination : Instr → Option Reg
  | .modred rd _ _ => some rd
  | .modmul rd _ _ _ => some rd
  | .modexp rd _ _ _ => some rd
  | .modinv rd _ _ => some rd
  | .primetest _ => none
  | .generate _ => none
  | .encrypt rd _ => some rd
  | .decrypt rd _ => some rd

theorem destination_eq_some {i : Instr} {rd : Reg}
    (h : (∃ a m, i = .modred rd a m) ∨ (∃ a b m, i = .modmul rd a b m) ∨ (∃ a b m, i = .modexp rd a b m) ∨
      (∃ a m, i = .modinv rd a m) ∨ (∃ w, i = .encrypt rd w) ∨ (∃ a, i = .decrypt rd a)) : destination i = some rd := by
  obtain ⟨a, m, rfl⟩ | ⟨a, b, m, rfl⟩ | ⟨a, b, m, rfl⟩ | ⟨a, m, rfl⟩ | ⟨w, rfl⟩ | ⟨a, rfl⟩ := h
  all_goals rfl

/-- A command with a destination fails or writes it. -/
theorem exec_destination_cases {i : Instr} {s t : State} {rd : Reg} (h : exec i s = .next t)
    (hd : destination i = some rd) : Failed s t ∨ WroteX s t rd := by
  obtain hfail | ⟨rd', hwrote, hi⟩ | ⟨ra, v, ent, rfl, -⟩ | ⟨bits, n, e, d, ent, rfl, -⟩ := exec_cases h
  · exact .inl hfail
  · have hrd : rd' = rd := Option.some.inj ((destination_eq_some hi).symm.trans hd)
    exact .inr (hrd ▸ hwrote)
  · cases hd
  · cases hd

/-- A command with a destination draws nothing. -/
theorem exec_entropy_of_destination {i : Instr} {s t : State} {rd : Reg} (h : exec i s = .next t)
    (hd : destination i = some rd) : t.entropy = s.entropy := by
  refine exec_entropy_of_undrawn h (fun hp => ?_) (fun hg => ?_)
  · cases i <;> cases hp
    cases hd
  · cases i <;> cases hg
    cases hd

/-- GENERATE fails or writes the key its search found (44_rsa_engine.md R120). -/
theorem exec_generate_cases {bits : BitVec 16} {s t : State} (h : exec (.generate bits) s = .next t) :
    Failed s t ∨ ∃ n e d ent, s.engine = .uninitialized ∧ (2 ≤ keySize bits / 2 ∧ 2 * (keySize bits / 2) ≤ s.cfg.W) ∧
      keySearch s.cfg.mrRounds (keySize bits / 2) (s.cfg.tryLimit + 1) s.cfg.tryLimit s.entropy = (some (n, e, d), ent) ∧
      t = (s.setKey n e d ent).succeed := by
  obtain hfail | ⟨rd, -, hi⟩ | ⟨ra, v, ent, hi, -⟩ | ⟨bits', n, e, d, ent, hi, hfound⟩ := exec_cases h
  · exact .inl hfail
  · cases destination_eq_some hi
  · cases hi
  · cases hi
    exact .inr ⟨n, e, d, ent, hfound⟩

/-- A failed command has a code in ERR (60_exceptions.md R130). -/
theorem Failed.err_ne_zero {s t : State} (h : Failed s t) : t.err ≠ 0 := by
  obtain ⟨c, hpos, -, -, herr, -⟩ := h.code_and_arch
  intro hzero
  rw [hzero] at herr
  have hc : 0 = c := herr
  omega

/-! ## The primitives under a change of the key -/

/-- The state with another key and STATE. -/
def State.withKey (s : State) (n e d : Nat) (g : EngineState) : State :=
  { s with keyN := n, keyE := e, keyD := d, engine := g }

/-- The end of a body that started with another key. -/
def BodyEnd.withKey (b : BodyEnd) (n e d : Nat) (g : EngineState) : BodyEnd :=
  match b with
  | .completes u => .completes (u.withKey n e d g)
  | .raises k ent => .raises k ent

theorem finishCommand_withKey {s t : State} {b : BodyEnd} (n e d : Nat) (g : EngineState)
    (h : finishCommand s b = .next t) :
    finishCommand (s.withKey n e d g) (b.withKey n e d g) = .next (t.withKey n e d g) := by
  cases b <;> (cases h; rfl)

/-- The check of the modulus does not read the key. -/
theorem finishCommand_modulus_withKey {s t : State} {m : Nat} {b : BodyEnd} (n e d : Nat) (g : EngineState)
    (h : finishCommand s (if m = 0 then .raises .zeroModulus s.entropy else b) = .next t) :
    finishCommand (s.withKey n e d g) (if m = 0 then .raises .zeroModulus s.entropy else b.withKey n e d g) =
      .next (t.withKey n e d g) := by
  rw [← finishCommand_withKey n e d g h, apply_ite (BodyEnd.withKey · n e d g)]
  rfl

/-- The body of a primitive reads no key register and no STATE (44_rsa_engine.md R123). -/
theorem exec_withKey {i : Instr} {s t : State} (n e d : Nat) (g : EngineState)
    (hi : i.opcode ∈ [Opcode.modred, .modmul, .modexp, .modinv, .primetest]) (h : exec i s = .next t) :
    exec i (s.withKey n e d g) = .next (t.withKey n e d g) := by
  cases i
  case modred rd ra rm =>
    rw [exec_modred_eq] at h ⊢
    exact finishCommand_modulus_withKey n e d g h
  case modmul rd ra rb rm =>
    rw [exec_modmul_eq] at h ⊢
    exact finishCommand_modulus_withKey n e d g h
  case modexp rd ra rb rm =>
    rw [exec_modexp_eq] at h ⊢
    exact finishCommand_modulus_withKey n e d g h
  case modinv rd ra rm =>
    rw [exec_modinv_eq] at h ⊢
    change finishCommand _ (if s.x[rm] = 0 then _ else (modInv s.x[ra] s.x[rm]).elim _ _) = _
    cases hinv : modInv s.x[ra] s.x[rm] with
    | none =>
      rw [hinv] at h
      exact finishCommand_modulus_withKey n e d g h
    | some v =>
      rw [hinv] at h
      exact finishCommand_modulus_withKey n e d g h
  case primetest ra =>
    rw [exec_primetest_eq] at h ⊢
    exact finishCommand_withKey n e d g h
  all_goals simp [Instr.opcode] at hi

end Sys2Proof.Machine
end

section
/-! PROOFS. The statements about what the commands leave as it is. -/

namespace Sys2Proof.Machine

open Sys2Proof

/-- Settles O10: the ends of the six other commands leave the port they started with. -/
theorem onlyTestsAndSearchesDraw : Obligations.OnlyTestsAndSearchesDraw := by
  unfold Obligations.OnlyTestsAndSearchesDraw
  exact fun _ _ _ => exec_entropy_of_undrawn

/-- Settles O34: a command with a destination fails, which touches ERR and ERRLOG only, or writes that register. -/
theorem registerCommandsFrame : Obligations.RegisterCommandsFrame := by
  unfold Obligations.RegisterCommandsFrame
  intro s t i rd hi hexec
  have hd := destination_eq_some hi
  have hdraws := exec_entropy_of_destination hexec hd
  obtain hfail | ⟨v, -, rfl⟩ := exec_destination_cases hexec hd
  · have herr := hfail.err_ne_zero
    obtain ⟨k, ent, -, rfl⟩ := hfail
    exact ⟨fun _ _ => rfl, rfl, rfl, rfl, rfl, rfl, rfl, rfl, hdraws, rfl, rfl, fun _ => rfl, fun h => absurd h herr⟩
  · exact ⟨fun _ hr => State.readX_writeX_ne s v hr, rfl, rfl, rfl, rfl, rfl, rfl, rfl, rfl, rfl, rfl, absurd rfl,
      fun _ => rfl⟩

/-- Settles O35: PRIMETEST has one end; GENERATE fails, which leaves the key, or writes the key, which leaves ERRLOG. -/
theorem testAndGenerateFrame : Obligations.TestAndGenerateFrame := by
  unfold Obligations.TestAndGenerateFrame
  refine ⟨fun s t ra h => ?_, fun s t bits h => ?_⟩
  · rw [exec_primetest_eq, finishCommand_setPrime] at h
    cases h
    rfl
  · obtain hfail | ⟨n, e, d, ent, -, -, -, rfl⟩ := exec_generate_cases h
    · have herr := hfail.err_ne_zero
      obtain ⟨k, ent, -, rfl⟩ := hfail
      exact ⟨rfl, fun _ => ⟨rfl, rfl, rfl, rfl⟩, fun h => absurd h herr⟩
    · exact ⟨rfl, absurd rfl, fun _ => rfl⟩

/-- Settles O36: the body of a primitive reads no key register, so it ends alike from a state with another key. -/
theorem primitivesIgnoreTheKey : Obligations.PrimitivesIgnoreTheKey := by
  unfold Obligations.PrimitivesIgnoreTheKey
  exact fun _ _ _ n e d g => exec_withKey n e d g

end Sys2Proof.Machine
end

section
/-! SUPPORT. The transactions of the `set` and `get` lines of a host script run one after another (30_encoding.md R70;
20_memory.md R43), and the words of the control registers. -/

namespace Sys2Proof.Machine

open Sys2Proof

/-! ## Control registers -/

theorem portRead_cmd (s : State) : portRead s 0x0002 = s.cmd := rfl

theorem portRead_errlog (s : State) : portRead s 0x0005 = s.errlog := rfl

theorem portRead_err_toNat (s : State) : (portRead s 0x0004).toNat = s.err.toNat :=
  BitVec.toNat_setWidth_of_le (by decide)

/-! ## The writes of a `set` line -/

/-- A register after the limbs `ls` of `v` were written to it one after another. -/
def writeLimbs (v : Nat) (ls : List Nat) (u : Nat) : Nat :=
  ls.foldl (fun u l => setLimb u l (limb v l)) u

theorem limb_writeLimbs (v : Nat) (ls : List Nat) (l : Nat) : ∀ u,
    limb (writeLimbs v ls u) l = if l ∈ ls then limb v l else limb u l := by
  induction ls with
  | nil => exact fun u => rfl
  | cons i ls ih =>
    intro u
    rw [writeLimbs, List.foldl_cons, ← writeLimbs, ih]
    by_cases hl : l = i
    · subst hl
      simp [limb_setLimb_same]
    · simp [hl, limb_setLimb_ne]

theorem writeLimbs_lt {v n : Nat} {ls : List Nat} (hls : ∀ l ∈ ls, l < n) : ∀ {u}, u < 2 ^ (32 * n) →
    writeLimbs v ls u < 2 ^ (32 * n) := by
  induction ls with
  | nil => exact id
  | cons i ls ih =>
    intro u hu
    rw [List.forall_mem_cons] at hls
    exact ih hls.2 (setLimb_lt _ hls.1 hu)

/-- All `n` limbs of a value written leave the value. -/
theorem writeLimbs_range {v u n : Nat} (hv : v < 2 ^ (32 * n)) (hu : u < 2 ^ (32 * n)) :
    writeLimbs v (List.range n) u = v := by
  refine eq_of_limbs (writeLimbs_lt (fun l hl => List.mem_range.mp hl) hu) hv fun i hi => ?_
  rw [limb_writeLimbs, if_pos (List.mem_range.mpr hi)]

theorem State.setPending_self {s : State} {evs : List HostEvent} (h : s.pending = evs) : s.setPending evs = s := by
  rw [← h]
  rfl

theorem State.writeX_readX (s : State) (r : Reg) : s.writeX r (s.readX r) = s :=
  congrArg (fun xs => { s with x := xs }) (Vector.set_getElem_self r.isLt)

theorem State.writeX_writeX (s : State) (r : Reg) (v w : Nat) : (s.writeX r v).writeX r w = s.writeX r w :=
  congrArg (fun xs => { s with x := xs }) (Vector.set_set ..)

/-- A write of a limb the register has replaces that limb (20_memory.md R43). -/
theorem step_limbWrite {s : State} {j : Reg} {i : Nat} {w : Word} {evs : List HostEvent} (hi : i < 0x400)
    (hl : i < s.cfg.limbs) (hp : s.pending = .write (operandIndex j i) w :: evs) :
    step s = .next ((s.setPending evs).writeX j (setLimb (s.readX j) i w)) := by
  have hidx := operandIndex_toNat j hi
  rw [step_portWrite hp (ne_cmdIndex (by omega)), portWrite_operand (s.setPending evs) w hi hidx hl]
  rfl

/-- Writes of limbs the register has change that register only. -/
theorem runSteps_writes (j : Reg) (v : Nat) (rest : List HostEvent) (ls : List Nat) : ∀ s : State,
    s.cfg.limbs ≤ 0x400 → (∀ l ∈ ls, l < s.cfg.limbs) →
    s.pending = ls.map (fun i => .write (operandIndex j i) (limb v i)) ++ rest →
    runSteps ls.length s = .next ((s.setPending rest).writeX j (writeLimbs v ls (s.readX j))) := by
  induction ls with
  | nil =>
    intro s _ _ hp
    rw [List.map_nil, List.nil_append] at hp
    rw [State.setPending_self hp]
    exact congrArg Host.Outcome.next (s.writeX_readX j).symm
  | cons i ls ih =>
    intro s hL hls hp
    rw [List.forall_mem_cons] at hls
    obtain ⟨hi, hls⟩ := hls
    rw [List.length_cons, runSteps_of_step (step_limbWrite (hi.trans_le hL) hi hp)]
    refine (ih _ ?_ ?_ ?_).trans ?_
    · exact hL
    · exact hls
    · rfl
    · rw [State.readX_writeX_same]
      exact congrArg Host.Outcome.next (State.writeX_writeX (s.setPending rest) ..)

/-! ## The reads of a `get` line -/

/-- Reads hand the host their words, the last one newest, and change no state. -/
theorem runSteps_reads (idx : Nat → Index) (rest : List HostEvent) (ls : List Nat) : ∀ s : State,
    s.pending = ls.map (fun i => .read (idx i)) ++ rest →
    runSteps ls.length s =
      .next { s with pending := rest, replies := (ls.map fun i => portRead s (idx i)).reverse ++ s.replies } := by
  induction ls with
  | nil =>
    intro s hp
    rw [List.map_nil, List.nil_append] at hp
    rw [← hp]
    rfl
  | cons i ls ih =>
    intro s hp
    rw [List.length_cons, runSteps_of_step (step_read hp)]
    refine (ih _ rfl).trans ?_
    rw [List.map_cons, List.reverse_cons, List.append_assoc]
    rfl

/-- The words of a value's `n` limbs, newest first, make up the value modulo `2^(32n)`. -/
theorem valueOfReplies_limbs (v n : Nat) :
    valueOfReplies ((List.range n).map (limb v)).reverse = v % 2 ^ (32 * n) := by
  induction n with
  | zero => simp [valueOfReplies, Nat.mod_one]
  | succ n ih =>
    rw [List.range_succ, List.map_append, List.reverse_append]
    simp only [List.map_cons, List.map_nil, List.reverse_singleton, List.singleton_append, valueOfReplies]
    rw [ih, List.length_reverse, List.length_map, List.length_range, limb_toNat, Nat.mul_succ, Nat.pow_add, Nat.mod_mul]
    ring

/-- The limbs of a window read one after another make up its register. -/
theorem runSteps_windowReads {s : State} {base v : Nat} {rest : List HostEvent} (hv : v < 2 ^ (32 * s.cfg.limbs))
    (hread : ∀ i, i < s.cfg.limbs → portRead s (BitVec.ofNat 16 (base + i)) = readLimb s.cfg v i)
    (hp : s.pending = windowReads base s.cfg.limbs ++ rest) :
    ∃ ws, ws.length = s.cfg.limbs ∧ valueOfReplies ws = v ∧
      runSteps s.cfg.limbs s = .next { s with pending := rest, replies := ws ++ s.replies } := by
  have hwords : (List.range s.cfg.limbs).map (fun i => portRead s (BitVec.ofNat 16 (base + i))) =
      (List.range s.cfg.limbs).map (limb v) := by
    refine List.map_congr_left fun i hi => ?_
    rw [List.mem_range] at hi
    rw [hread i hi, readLimb, if_pos hi]
  refine ⟨((List.range s.cfg.limbs).map (limb v)).reverse, by simp, ?_, ?_⟩
  · rw [valueOfReplies_limbs, Nat.mod_eq_of_lt hv]
  · have hrun := runSteps_reads (fun i => BitVec.ofNat 16 (base + i)) rest _ s hp
    rwa [List.length_range, hwords] at hrun

theorem windowIndex_toNat {base i : Nat} (h : base + i < 2 ^ 16) : (BitVec.ofNat 16 (base + i)).toNat = base + i := by
  rw [BitVec.toNat_ofNat, Nat.mod_eq_of_lt h]

/-- A window has room for every limb (20_memory.md R42). -/
theorem Config.limbs_le {c : Config} (h : c.Valid) : c.limbs ≤ 0x400 := by
  obtain ⟨⟨-, -, hW⟩, -⟩ := h
  rw [Config.limbs]
  omega

end Sys2Proof.Machine
end

section
/-! PROOFS. The statements about control registers and the lines of a host script (10_state.md, 30_encoding.md R70). -/

namespace Sys2Proof.Machine

open Sys2Proof

/-- Settles O44: the map names the register at each index, and each constant fits its word. -/
theorem controlRegisterReads : Obligations.ControlRegisterReads := by
  unfold Obligations.ControlRegisterReads
  intro s idx rest hcfg hp
  refine ⟨portRead (s.setPending rest) idx, step_read hp, fun h => ?_, fun h => ?_, fun h => ?_, fun h => ?_, fun h => ?_,
    fun h => ?_, fun h => ?_⟩
  · rw [BitVec.eq_of_toNat_eq (y := 0x0000) h, portRead_id]
  · rw [BitVec.eq_of_toNat_eq (y := 0x0001) h]
    exact portRead_width_toNat _ hcfg
  · rw [BitVec.eq_of_toNat_eq (y := 0x0002) h]
    exact portRead_cmd _
  · rw [BitVec.eq_of_toNat_eq (y := 0x0004) h]
    exact portRead_err_toNat _
  · rw [BitVec.eq_of_toNat_eq (y := 0x0005) h]
    exact portRead_errlog _
  · rw [BitVec.eq_of_toNat_eq (y := 0x0006) h]
    exact portRead_rounds_toNat _ hcfg
  · rw [BitVec.eq_of_toNat_eq (y := 0x0007) h]
    exact portRead_trylim_toNat _ hcfg

/-- Settles O48: the writes replace every limb of the register, and two naturals of `L` equal limbs are equal. -/
theorem setLineWritesTheRegister : Obligations.SetLineWritesTheRegister := by
  unfold Obligations.SetLineWritesTheRegister
  intro s j v rest hcfg hx hv hp
  rw [Config.W_eq_limbs hcfg] at hx hv
  change s.readX j < _ at hx
  have hrun := runSteps_writes j v rest _ s (Config.limbs_le hcfg) (fun l hl => List.mem_range.mp hl) hp
  rw [List.length_range, writeLimbs_range hv hx] at hrun
  exact hrun

/-- Settles O49: each of the four lines reads the limbs of one window. -/
theorem getLinesReadTheRegister : Obligations.GetLinesReadTheRegister := by
  unfold Obligations.GetLinesReadTheRegister
  intro s line v rest hcfg hv hline hp
  have hL := Config.limbs_le hcfg
  rw [Config.W_eq_limbs hcfg] at hv
  obtain ⟨j, rfl, rfl⟩ | ⟨rfl, rfl⟩ | ⟨rfl, rfl⟩ | ⟨rfl, rfl⟩ := hline
  · refine runSteps_windowReads hv (fun i hi => ?_) hp
    have hj := j.isLt
    exact portRead_operand (hi.trans_le hL) (windowIndex_toNat (by omega))
  · exact runSteps_windowReads hv (fun i hi => portRead_windowN (hi.trans_le hL) (windowIndex_toNat (by omega))) hp
  · exact runSteps_windowReads hv (fun i hi => portRead_windowE (hi.trans_le hL) (windowIndex_toNat (by omega))) hp
  · exact runSteps_windowReads hv (fun i hi => portRead_windowD (hi.trans_le hL) (windowIndex_toNat (by omega))) hp

end Sys2Proof.Machine
end

section
/-! SUPPORT. The naive power, and why a unit decrypts to its byte (41_modexp.md R90; 44_rsa_engine.md R124). -/

namespace Sys2Proof.Machine

open Sys2Proof

/-- The naive loop multiplies a residue by the base `e` times. -/
theorem naiveLoop_eq (b n e : Nat) : ∀ r, naiveLoop b n e (r % n) = r * b ^ e % n := by
  induction e with
  | zero => exact fun r => by rw [naiveLoop, Nat.pow_zero, Nat.mul_one]
  | succ e ih =>
    intro r
    rw [naiveLoop, Nat.mod_mul_mod, ih, Nat.pow_succ', Nat.mul_assoc]

theorem naiveModPow_eq (b e n : Nat) : naiveModPow b e n = b ^ e % n := by
  rw [naiveModPow, naiveLoop_eq, Nat.one_mul]

/-- A power whose exponent is 1 more than a multiple of `p - 1` is the base modulo the prime `p`. -/
theorem pow_modEq_self_of_prime {p : Nat} (hp : p.Prime) (b c : Nat) : b ^ (1 + (p - 1) * c) ≡ b [MOD p] := by
  by_cases hb : p ∣ b
  · exact (Nat.modEq_zero_iff_dvd.mpr (hb.trans (dvd_pow_self b (by omega)))).trans
      (Nat.modEq_zero_iff_dvd.mpr hb).symm
  · have hone : b ^ (p - 1) ≡ 1 [MOD p] := by
      rw [← Nat.totient_prime hp]
      exact Nat.ModEq.pow_totient ((Nat.Prime.coprime_iff_not_dvd hp).mpr hb).symm
    calc b ^ (1 + (p - 1) * c) = b * (b ^ (p - 1)) ^ c := by rw [Nat.pow_add, Nat.pow_one, Nat.pow_mul]
      _ ≡ b * 1 ^ c [MOD p] := (hone.pow c).mul_left b
      _ = b := by rw [Nat.one_pow, Nat.mul_one]

/-- The exponents of a key of two primes undo each other on every residue (44_rsa_engine.md R124). -/
theorem rsa_round_trip {p q e d b : Nat} (hp : p.Prime) (hq : q.Prime) (hne : p ≠ q)
    (hinv : e * d % ((p - 1) * (q - 1)) = 1 % ((p - 1) * (q - 1))) (hb : b < p * q) :
    (b ^ e % (p * q)) ^ d % (p * q) = b := by
  have hphi : 1 < (p - 1) * (q - 1) := by
    have hp2 := hp.two_le
    have hq2 := hq.two_le
    exact Nat.one_lt_mul_iff.mpr ⟨by omega, by omega, by omega⟩
  rw [Nat.mod_eq_of_lt hphi] at hinv
  obtain ⟨c, hc⟩ : ∃ c, e * d = 1 + (p - 1) * (q - 1) * c := by
    have hdiv := Nat.mod_add_div (e * d) ((p - 1) * (q - 1))
    rw [hinv] at hdiv
    exact ⟨_, hdiv.symm⟩
  have hmodp : b ^ (e * d) ≡ b [MOD p] := by
    rw [hc, Nat.mul_assoc]
    exact pow_modEq_self_of_prime hp b _
  have hmodq : b ^ (e * d) ≡ b [MOD q] := by
    rw [hc, Nat.mul_comm (p - 1), Nat.mul_assoc]
    exact pow_modEq_self_of_prime hq b _
  have hmod := (Nat.modEq_and_modEq_iff_modEq_mul ((Nat.coprime_primes hp hq).mpr hne)).mp ⟨hmodp, hmodq⟩
  rw [← Nat.pow_mod, ← Nat.pow_mul, hmod, Nat.mod_eq_of_lt hb]

/-! ## The two commands as host scripts run them -/

/-- The step of the line `encrypt xd, b` with a key and a byte below `N`. -/
theorem step_encrypt {s : State} {rd : Reg} {b : BitVec 8} {rest : List HostEvent} (hs : s.engine = .keyGenerated)
    (hb : b.toNat < s.keyN) (hp : s.pending = commandEvent (.encrypt rd b) :: rest) :
    step s = .next { s with
      x := s.x.set rd (b.toNat ^ s.keyE % s.keyN), cmd := encode (.encrypt rd b), err := 0, pending := rest } := by
  obtain ⟨-, -, -, hok⟩ := encryptResult ((s.setPending rest).setCmd (encode (.encrypt rd b))) rd b
  rw [step_command hp (decodeInvertsEncode _)]
  exact (hok hs hb).2

/-- The step of the line `decrypt xd, xa` with a key and a unit whose power is a byte. -/
theorem step_decrypt {s : State} {rd ra : Reg} {m : Nat} {rest : List HostEvent} (hs : s.engine = .keyGenerated)
    (hm : s.x[ra] ^ s.keyD % s.keyN = m) (hlt : m < 256) (hp : s.pending = commandEvent (.decrypt rd ra) :: rest) :
    step s = .next { s with x := s.x.set rd m, cmd := encode (.decrypt rd ra), err := 0, pending := rest } := by
  subst hm
  obtain ⟨-, -, -, hok⟩ := decryptResult ((s.setPending rest).setCmd (encode (.decrypt rd ra))) rd ra
  rw [step_command hp (decodeInvertsEncode _)]
  exact hok hs hlt

end Sys2Proof.Machine
end

section
/-! PROOFS. The statements about the arithmetic functions and the round trip (41_modexp.md R92, 42_modinv.md R102,
44_rsa_engine.md R124). -/

namespace Sys2Proof.Machine

open Sys2Proof

/-- Settles O15: both loops compute the exact power reduced. -/
theorem squareAndMultiplyIsNaive : Obligations.SquareAndMultiplyIsNaive := by
  unfold Obligations.SquareAndMultiplyIsNaive
  exact fun b e n _ => ⟨by rw [modPow_eq, naiveModPow_eq], naiveModPow_eq b e n⟩

/-- Settles O16: the loop ends with the greatest common divisor, and reducing the value first does not change that. -/
theorem euclidComputesTheInverse : Obligations.EuclidComputesTheInverse := by
  unfold Obligations.EuclidComputesTheInverse
  intro a m hm
  rw [← Nat.gcd_rec, Nat.gcd_comm]
  exact ⟨modInv_of_coprime (Nat.pos_iff_ne_zero.mp hm), (modInv_eq_none_iff a m).mpr⟩

/-- Settles O33: the first command leaves the unit in its register and the key as it is, and the second one's power is the
byte again. -/
theorem encryptThenDecryptReturnsTheByte : Obligations.EncryptThenDecryptReturnsTheByte := by
  unfold Obligations.EncryptThenDecryptReturnsTheByte
  intro s p q k b ri rj rest hs hkey hp hq hb hpending
  obtain ⟨hne, -, -, -, -, -, hN, -, -, hinv, -⟩ := hkey
  have hbyte : (b.toNat ^ s.keyE % s.keyN) ^ s.keyD % s.keyN = b.toNat := by
    rw [hN] at hb ⊢
    exact rsa_round_trip hp hq hne hinv hb
  have hunit : (s.x.set ri (b.toNat ^ s.keyE % s.keyN))[ri] = b.toNat ^ s.keyE % s.keyN :=
    Vector.getElem_set_self ri.isLt
  rw [← hunit] at hbyte
  refine (runSteps_of_step (step_encrypt hs hb hpending) 1).trans
    (runSteps_of_step (step_decrypt (m := b.toNat) ?_ ?_ b.isLt rfl) 0)
  · exact hs
  · exact hbyte

end Sys2Proof.Machine
end

section
/-! SUPPORT. The two methods of the informative section of 40_modmul.md: Barrett's estimate of the quotient and Montgomery's
exact division by `R`. -/

namespace Sys2Proof.Machine

open Sys2Proof

/-! ## Barrett's estimate, for `P ≤ n` in place of `2^(k-1)` and `Q` in place of `2^(k+1)` -/

theorem barrett_estimate_mul_le {P Q : Nat} (hP : 0 < P) (hQ : 0 < Q) (n x : Nat) : x / P * (P * Q / n) / Q * n ≤ x := by
  refine Nat.le_of_mul_le_mul_right (c := P * Q) ?_ (Nat.mul_pos hP hQ)
  calc x / P * (P * Q / n) / Q * n * (P * Q) = x / P * (P * Q / n) / Q * Q * (n * P) := by ring
    _ ≤ x / P * (P * Q / n) * (n * P) := Nat.mul_le_mul_right _ (Nat.div_mul_le_self ..)
    _ = x / P * P * (P * Q / n * n) := by ring
    _ ≤ x * (P * Q) := Nat.mul_le_mul (Nat.div_mul_le_self ..) (Nat.div_mul_le_self ..)

/-- The estimate is at most 2 below the quotient: each of its three roundings loses less than 1 of the estimate. -/
theorem lt_barrett_estimate_add_three {P Q n x : Nat} (hP : 0 < P) (hPn : P ≤ n) (hx : x < P * Q) :
    x < (x / P * (P * Q / n) / Q + 3) * n := by
  have hQ : 0 < Q := Nat.pos_of_ne_zero fun h => by simp [h] at hx
  have hA : x / P < Q := Nat.div_lt_of_lt_mul hx
  have hmu : P * Q / n ≤ Q := Nat.div_le_of_le_mul (Nat.mul_le_mul_right Q hPn)
  have hxA := Nat.lt_mul_div_succ x hP
  have hRmu := Nat.lt_mul_div_succ (P * Q) (hP.trans_le hPn)
  have hq := Nat.lt_mul_div_succ (x / P * (P * Q / n)) hQ
  generalize x / P = A at *
  generalize P * Q / n = mu at *
  generalize A * mu / Q = q at *
  have hsum : (A + 1) * (mu + 1) ≤ Q * (q + 1) + Q + Q := by
    rw [add_one_mul, mul_add_one]
    omega
  refine Nat.lt_of_mul_lt_mul_right (a := P * Q) ?_
  calc x * (P * Q) < P * (A + 1) * (n * (mu + 1)) := Nat.mul_lt_mul'' hxA hRmu
    _ = n * P * ((A + 1) * (mu + 1)) := by ring
    _ ≤ n * P * (Q * (q + 1) + Q + Q) := Nat.mul_le_mul_left _ hsum
    _ = (q + 3) * n * (P * Q) := by ring

/-- A value of which a multiple of `n` is taken away, less than `3n` left, and then `n` at most twice, is reduced. -/
theorem sub_twice_eq_mod {n x q : Nat} (hle : q * n ≤ x) (hlt : x < (q + 3) * n) :
    (let r0 := x - q * n
     let r1 := if r0 ≥ n then r0 - n else r0
     if r1 ≥ n then r1 - n else r1) = x % n := by
  have hmod : (x - q * n) % n = x % n := by rw [mul_comm q n] at hle ⊢; exact Nat.sub_mul_mod hle
  rw [← hmod]
  have h3 : x - q * n < 3 * n := by rw [Nat.add_mul] at hlt; omega
  generalize x - q * n = r at *
  simp only
  split_ifs with h1 h2
  · rw [Nat.mod_eq_sub_mod h1, Nat.mod_eq_sub_mod h2, Nat.mod_eq_of_lt (by omega)]
  · rw [Nat.mod_eq_sub_mod h1, Nat.mod_eq_of_lt (by omega)]
  · rw [Nat.mod_eq_of_lt (by omega)]

/-- Barrett reduction is the remainder (40_modmul.md, informative section). -/
theorem barrett_eq_mod {n x : Nat} (hn : n ≠ 0) (hx : x < 2 ^ (2 * bitLen n)) : barrett n x = x % n := by
  have hk := bitLen_pos hn
  have hpow : 2 ^ (2 * bitLen n) = 2 ^ (bitLen n - 1) * 2 ^ (bitLen n + 1) := by
    rw [← Nat.pow_add]
    congr 1
    omega
  have hP : 0 < 2 ^ (bitLen n - 1) := Nat.two_pow_pos _
  rw [hpow] at hx
  rw [barrett, hpow]
  exact sub_twice_eq_mod (barrett_estimate_mul_le hP (Nat.two_pow_pos _) n x)
    (lt_barrett_estimate_add_three hP (two_pow_bitLen_le hn) hx)

/-! ## Montgomery -/

theorem coprime_two_pow {n : Nat} (hodd : n % 2 = 1) (r : Nat) : Nat.Coprime n (2 ^ r) :=
  Nat.Coprime.pow_right r (Nat.coprime_two_right.mpr (Nat.odd_iff.mpr hodd))

/-- `n'` is the negative of the inverse of `n` modulo `R` (40_modmul.md, informative section). -/
theorem mul_montgomeryConstant_add_one {n : Nat} (hodd : n % 2 = 1) (r : Nat) :
    2 ^ r ∣ n * montgomeryConstant n r + 1 := by
  obtain ⟨i, hi, hlt, hinv, -⟩ := modInv_of_coprime (Nat.two_pow_pos r).ne' (coprime_two_pow hodd r)
  rw [montgomeryConstant, hi]
  rw [← Nat.modEq_zero_iff_dvd]
  have h : (n * ((2 ^ r - i) % 2 ^ r) + 1) + n * i ≡ 0 + n * i [MOD 2 ^ r] := by
    calc (n * ((2 ^ r - i) % 2 ^ r) + 1) + n * i = n * ((2 ^ r - i) % 2 ^ r) + (n * i + 1) := by ring
      _ ≡ n * (2 ^ r - i) + (n * i + 1) [MOD 2 ^ r] := ((Nat.mod_modEq _ _).mul_left n).add_right _
      _ = n * (2 ^ r - i + i) + 1 := by ring
      _ = n * 2 ^ r + 1 := by rw [Nat.sub_add_cancel hlt.le]
      _ ≡ n * 0 + n * i [MOD 2 ^ r] := ((Nat.modEq_zero_iff_dvd.mpr dvd_rfl).mul_left n).add (Eq.symm hinv)
      _ = 0 + n * i := rfl
  exact Nat.ModEq.add_right_cancel' _ h

/-- What REDC divides by `R`: `T + u * n`. -/
theorem redc_dvd {n : Nat} (hodd : n % 2 = 1) (r T : Nat) :
    2 ^ r ∣ T + (T % 2 ^ r) * montgomeryConstant n r % 2 ^ r * n := by
  rw [← Nat.modEq_zero_iff_dvd]
  calc T + (T % 2 ^ r) * montgomeryConstant n r % 2 ^ r * n
      ≡ T + T * montgomeryConstant n r * n [MOD 2 ^ r] :=
        (((Nat.mod_modEq _ _).trans ((Nat.mod_modEq _ _).mul_right _)).mul_right n).add_left T
    _ = T * (n * montgomeryConstant n r + 1) := by ring
    _ ≡ 0 [MOD 2 ^ r] := Nat.modEq_zero_iff_dvd.mpr ((mul_montgomeryConstant_add_one hodd r).mul_left T)

/-- `REDC(T)` is below `n` and is `T / R` modulo `n` (40_modmul.md, informative section). -/
theorem redc_spec {n r T : Nat} (hodd : n % 2 = 1) (hT : T < 2 ^ r * n) :
    redc n r T < n ∧ redc n r T * 2 ^ r ≡ T [MOD n] := by
  have hdvd := redc_dvd hodd r T
  have hu : (T % 2 ^ r) * montgomeryConstant n r % 2 ^ r < 2 ^ r := Nat.mod_lt _ (Nat.two_pow_pos r)
  unfold redc
  generalize (T % 2 ^ r) * montgomeryConstant n r % 2 ^ r = u at *
  obtain ⟨t, ht⟩ := hdvd
  simp only [ht, Nat.mul_div_cancel_left t (Nat.two_pow_pos r)]
  have hmod : t * 2 ^ r ≡ T [MOD n] := by
    rw [mul_comm, ← ht]
    exact Nat.add_mul_mod_self_right T u n
  have hlt : t < 2 * n := by
    refine Nat.lt_of_mul_lt_mul_left (a := 2 ^ r) ?_
    calc 2 ^ r * t = T + u * n := ht.symm
      _ < 2 ^ r * n + 2 ^ r * n := Nat.add_lt_add_of_lt_of_le hT (Nat.mul_le_mul_right n hu.le)
      _ = 2 ^ r * (2 * n) := by ring
  split_ifs with hge
  · have hsub : t - n ≡ t [MOD n] := (Nat.mod_eq_sub_mod hge).symm
    exact ⟨by omega, (hsub.mul_right _).trans hmod⟩
  · exact ⟨by omega, hmod⟩

/-- Two reductions, with the factor `R^2 mod n` between them, take `R` away twice and put it back twice
(40_modmul.md, informative section). -/
theorem montgomeryMul_eq {n r : Nat} (hodd : n % 2 = 1) (hr : n < 2 ^ r) (a b : Nat) :
    montgomeryMul n r a b = a * b % n := by
  have hn : 0 < n := by omega
  have hlt {u v : Nat} (hu : u < n) (hv : v < n) : u * v < 2 ^ r * n := Nat.mul_lt_mul'' (hu.trans hr) hv
  obtain ⟨h1, hmod1⟩ := redc_spec hodd (hlt (Nat.mod_lt a hn) (Nat.mod_lt b hn))
  obtain ⟨h2, hmod2⟩ := redc_spec hodd (hlt h1 (Nat.mod_lt (2 ^ r * 2 ^ r) hn))
  rw [montgomeryMul]
  generalize redc n r (a % n * (b % n)) = u at *
  generalize redc n r (u * (2 ^ r * 2 ^ r % n)) = v at *
  have hvR : v * 2 ^ r ≡ a * b * 2 ^ r [MOD n] := by
    calc v * 2 ^ r ≡ u * (2 ^ r * 2 ^ r % n) [MOD n] := hmod2
      _ ≡ u * (2 ^ r * 2 ^ r) [MOD n] := (Nat.mod_modEq _ _).mul_left u
      _ = u * 2 ^ r * 2 ^ r := by ring
      _ ≡ a % n * (b % n) * 2 ^ r [MOD n] := hmod1.mul_right _
      _ ≡ a * b * 2 ^ r [MOD n] := ((Nat.mod_modEq a n).mul (Nat.mod_modEq b n)).mul_right _
  have hv : v ≡ a * b [MOD n] := hvR.cancel_right_of_coprime (coprime_two_pow hodd r)
  rw [← hv, Nat.mod_eq_of_lt h2]

end Sys2Proof.Machine
end

section
/-! PROOFS. The statements about the datapath of the informative section (40_modmul.md). -/

namespace Sys2Proof.Machine

open Sys2Proof

/-- Settles O55: the estimate of the quotient is at most 2 too small, and never too large. -/
theorem barrettIsTheRemainder : Obligations.BarrettIsTheRemainder := by
  unfold Obligations.BarrettIsTheRemainder
  exact fun _ _ hn hx => barrett_eq_mod (Nat.pos_iff_ne_zero.mp hn) hx

/-- Settles O56: `u` makes the sum divisible by `R`, and the quotient is below `2n`. -/
theorem redcDividesByR : Obligations.RedcDividesByR := by
  unfold Obligations.RedcDividesByR
  exact fun _ _ _ _ hodd _ hT => redc_spec hodd hT

/-- Settles O57: an odd modulus from 3 takes the first method, every other one the second, whose argument is below `n^2`. -/
theorem datapathComputesModmul : Obligations.DatapathComputesModmul := by
  unfold Obligations.DatapathComputesModmul
  intro width n a b hn hwidth
  rw [datapathMul]
  split_ifs with hodd
  · exact montgomeryMul_eq hodd.1 hwidth a b
  · have hlen := lt_two_pow_bitLen n
    have hprod : a % n * (b % n) < 2 ^ (2 * bitLen n) := by
      rw [two_mul, Nat.pow_add]
      exact Nat.mul_lt_mul'' ((Nat.mod_lt a hn).trans hlen) ((Nat.mod_lt b hn).trans hlen)
    rw [barrett_eq_mod (Nat.pos_iff_ne_zero.mp hn) hprod, ← Nat.mul_mod]

end Sys2Proof.Machine
end

section
/-! SUPPORT. Draws word by word, the rounds of the primality test one by one, and why no round rejects a prime
(00_scope.md R8; 43_primetest.md R110, R112). -/

namespace Sys2Proof.Machine

open Sys2Proof

/-! ## Draws -/

/-- Draw `i` from the port: the next word of its script or, past its end, the free value (00_scope.md R8; log entry 2). -/
def Entropy.word (e : Entropy) (i : Nat) : Word := e.script.getD i (Config.entropyWord (e.taken + i))

/-- The port after `n` draws. -/
def Entropy.skip (e : Entropy) (n : Nat) : Entropy := ⟨e.script.drop n, e.taken + n⟩

theorem Entropy.draw_eq (e : Entropy) : e.draw = (e.word 0, e.skip 1) := by
  obtain ⟨_ | ⟨w, ws⟩, n⟩ := e <;> rfl

theorem Entropy.word_skip_one (e : Entropy) (i : Nat) : (e.skip 1).word i = e.word (i + 1) := by
  simp [Entropy.word, Entropy.skip, Nat.add_assoc, Nat.add_comm 1 i]

theorem Entropy.skip_skip (e : Entropy) (m n : Nat) : (e.skip m).skip n = e.skip (m + n) := by
  simp [Entropy.skip, Nat.add_assoc]

/-- The draws in order are the limbs, the first the least significant (00_scope.md R8). -/
theorem drawLimbs_eq (j : Nat) : ∀ e : Entropy,
    drawLimbs j e = (∑ i ∈ Finset.range j, (e.word i).toNat * 2 ^ (32 * i), e.skip j) := by
  induction j with
  | zero => exact fun e => rfl
  | succ j ih =>
    intro e
    have hsum : ∑ i ∈ Finset.range j, (e.word (i + 1)).toNat * 2 ^ (32 * (i + 1)) =
        2 ^ 32 * ∑ i ∈ Finset.range j, (e.word (i + 1)).toNat * 2 ^ (32 * i) := by
      rw [Finset.mul_sum]
      exact Finset.sum_congr rfl fun i _ => by ring
    rw [Finset.sum_range_succ', hsum, Nat.mul_zero, Nat.pow_zero, Nat.mul_one, Nat.add_comm (2 ^ 32 * _)]
    simp only [drawLimbs, e.draw_eq, ih, Entropy.word_skip_one, e.skip_skip, Nat.add_comm 1 j]

/-! ## Rounds -/

/-- The round of the witness `a`, with the `s` and `t` of the candidate `c` (43_primetest.md R110). -/
def witnessPasses (c a : Nat) : Bool :=
  roundPasses c (splitTwos (bitLen (c - 1)) (c - 1)).1 (splitTwos (bitLen (c - 1)) (c - 1)).2 a

/-- One more round on an odd candidate of at least 5 (43_primetest.md R110). -/
theorem isProbablePrime_succ {c : Nat} (rounds : Nat) (e : Entropy) (h5 : 5 ≤ c) (hodd : c % 2 = 1) :
    isProbablePrime (rounds + 1) c e =
      if witnessPasses c (2 + (drawBits (bitLen c) e).1 % (c - 3))
      then isProbablePrime rounds c (drawBits (bitLen c) e).2 else (false, (drawBits (bitLen c) e).2) := by
  rw [isProbablePrime_odd _ _ h5 hodd, isProbablePrime_odd _ _ h5 hodd, millerRabinRounds]
  rfl

theorem isProbablePrime_zero {c : Nat} (e : Entropy) (h5 : 5 ≤ c) (hodd : c % 2 = 1) :
    isProbablePrime 0 c e = (true, e) := by
  rw [isProbablePrime_odd _ _ h5 hodd, millerRabinRounds]

/-- A verdict reached without a round draws nothing. -/
theorem isProbablePrime_undrawn {c : Nat} (rounds : Nat) (e : Entropy) (h : c < 5 ∨ c % 2 = 0) :
    (isProbablePrime rounds c e).2 = e := by
  rcases Nat.lt_or_ge c 2 with h2 | h2
  · rw [isProbablePrime_of_lt_two _ _ h2]
  · rcases Nat.lt_or_ge c 4 with h4 | h4
    · rw [isProbablePrime_of_lt_four _ _ h2 h4]
    · rw [isProbablePrime_of_even _ _ h4 (by omega)]

/-- The verdict is true where every witness passes. -/
theorem isProbablePrime_of_all_pass {c : Nat} (h5 : 5 ≤ c) (hodd : c % 2 = 1)
    (h : ∀ a, 2 ≤ a → a < c → witnessPasses c a = true) (rounds : Nat) : ∀ e, (isProbablePrime rounds c e).1 = true := by
  induction rounds with
  | zero => exact fun e => by rw [isProbablePrime_zero e h5 hodd]
  | succ rounds ih =>
    intro e
    have hwitness := Nat.mod_lt (drawBits (bitLen c) e).1 (show 0 < c - 3 by omega)
    rw [isProbablePrime_succ _ _ h5 hodd, if_pos (h _ (by omega) (by omega))]
    exact ih _

/-- The verdict is false where no witness passes the first round. -/
theorem isProbablePrime_of_none_passes {c : Nat} (h5 : 5 ≤ c) (hodd : c % 2 = 1)
    (h : ∀ v, v < c - 3 → witnessPasses c (2 + v) = false) {rounds : Nat} (hr : 1 ≤ rounds) (e : Entropy) :
    (isProbablePrime rounds c e).1 = false := by
  obtain ⟨rounds, rfl⟩ := Nat.exists_eq_add_of_le' hr
  rw [isProbablePrime_succ _ _ h5 hodd, h _ (Nat.mod_lt _ (by omega))]
  rfl

/-! ## Primes -/

/-- In a field a root of 1 of order dividing `2^s * t` has power `t` equal to 1, or one of the squarings from it on meets -1. -/
theorem pow_odd_part_eq_one_or {K : Type} [CommRing K] [NoZeroDivisors K] {x : K} {t : Nat} (s : Nat)
    (h : x ^ (2 ^ s * t) = 1) : x ^ t = 1 ∨ ∃ j, j < s ∧ x ^ (2 ^ j * t) = -1 := by
  induction s with
  | zero => exact .inl (by simpa using h)
  | succ s ih =>
    rw [Nat.pow_succ, Nat.mul_right_comm, pow_mul, sq, mul_self_eq_one_iff] at h
    obtain hone | hneg := h
    · obtain ht | ⟨j, hj, hneg⟩ := ih hone
      · exact .inl ht
      · exact .inr ⟨j, by omega, hneg⟩
    · exact .inr ⟨s, by omega, hneg⟩

theorem natCast_pred_eq_neg_one {c : Nat} (hc : 1 ≤ c) : ((c - 1 : Nat) : ZMod c) = -1 := by
  rw [Nat.cast_sub hc, ZMod.natCast_self, Nat.cast_one, zero_sub]

/-- Every witness of a prime passes its round (43_primetest.md R112 (a)). -/
theorem roundPasses_of_prime {c s t a : Nat} (hc : c.Prime) (hs : 1 ≤ s) (hsplit : c - 1 = 2 ^ s * t) (ha : 2 ≤ a)
    (hlt : a < c) : roundPasses c s t a = true := by
  have := Fact.mk hc
  have hane : (a : ZMod c) ≠ 0 := fun h =>
    absurd (Nat.le_of_dvd (by omega) ((ZMod.natCast_eq_zero_iff a c).mp h)) (by omega)
  have hfermat : (a : ZMod c) ^ (2 ^ s * t) = 1 := by
    rw [← hsplit]
    exact ZMod.pow_card_sub_one_eq_one hane
  rw [roundPasses_iff hs]
  obtain hone | ⟨j, hj, hneg⟩ := pow_odd_part_eq_one_or s hfermat
  · have hmod : a ^ t % c = 1 % c := (ZMod.natCast_eq_natCast_iff' ..).mp (by exact_mod_cast hone)
    rw [Nat.mod_eq_of_lt hc.one_lt] at hmod
    exact .inl hmod
  · have hmod : a ^ (2 ^ j * t) % c = (c - 1) % c := (ZMod.natCast_eq_natCast_iff' ..).mp (by
      rw [natCast_pred_eq_neg_one hc.one_le, ← hneg, Nat.cast_pow])
    rw [Nat.mod_eq_of_lt (Nat.sub_lt hc.pos one_pos)] at hmod
    exact .inr ⟨j, hj, hmod⟩

end Sys2Proof.Machine
end

section
/-! PROOFS. The statements about draws and the primality test (00_scope.md R8; 43_primetest.md R110, R112). -/

namespace Sys2Proof.Machine

open Sys2Proof

/-- Settles O17: the limbs are the draws in order. -/
theorem drawBitsAssemblesDraws : Obligations.DrawBitsAssemblesDraws := by
  unfold Obligations.DrawBitsAssemblesDraws
  intro k e _
  rw [drawBits, drawLimbs_eq]
  rfl

/-- Settles O18: the split of `c - 1` gives `s` and `t`, and a round's loop looks for -1 among the squares. -/
theorem millerRabinRoundsOneByOne : Obligations.MillerRabinRounds := by
  unfold Obligations.MillerRabinRounds
  refine ⟨fun rounds c e => ⟨isProbablePrime_of_lt_two rounds e, isProbablePrime_of_lt_four rounds e,
    isProbablePrime_of_even rounds e⟩, fun c h5 hodd => ?_⟩
  obtain ⟨hs, ht, hsplit⟩ := splitTwos_candidate h5 hodd
  refine ⟨_, _, hs, ht, hsplit, fun e => isProbablePrime_zero e h5 hodd, fun rounds e => ⟨fun hpass => ?_, fun hfail => ?_⟩⟩
  · exact (isProbablePrime_succ rounds e h5 hodd).trans (if_pos ((roundPasses_iff hs).mpr hpass))
  · exact (isProbablePrime_succ rounds e h5 hodd).trans (if_neg (mt (roundPasses_iff hs).mp hfail))

/-- Settles O19: each round run draws one candidate's words, and a verdict without a round draws nothing. -/
theorem primeTestDrawCount : Obligations.PrimeTestDrawCount := by
  unfold Obligations.PrimeTestDrawCount
  intro rounds c e hr
  refine ⟨fun h5 hodd => ?_, isProbablePrime_undrawn rounds e⟩
  rw [isProbablePrime_odd _ _ h5 hodd]
  obtain ⟨hmost, hleast, -⟩ := millerRabinRounds_taken c (splitTwos (bitLen (c - 1)) (c - 1)).1
    (splitTwos (bitLen (c - 1)) (c - 1)).2 rounds e
  exact ⟨hleast hr, hmost⟩

/-- Settles O20: 2 and 3 are accepted at once, and every witness of a larger prime passes. -/
theorem primesAreAlwaysAccepted : Obligations.PrimesAreAlwaysAccepted := by
  unfold Obligations.PrimesAreAlwaysAccepted
  intro rounds c e hc
  rcases Nat.lt_or_ge c 4 with h4 | h4
  · rw [isProbablePrime_of_lt_four _ _ hc.two_le h4]
  · have hodd := hc.eq_two_or_odd.resolve_left (by omega)
    have h5 : 5 ≤ c := by omega
    obtain ⟨hs, -, hsplit⟩ := splitTwos_candidate h5 hodd
    exact isProbablePrime_of_all_pass h5 hodd (fun a => roundPasses_of_prime hc hs hsplit) rounds e

/-- Settles O21: the 6 witnesses of 9 and the 30 of 33 all fail. -/
theorem nineAndThirtyThreeRejected : Obligations.NineAndThirtyThreeRejected := by
  unfold Obligations.NineAndThirtyThreeRejected
  exact fun rounds e hr => ⟨isProbablePrime_of_none_passes (by decide) rfl (by decide) hr e,
    isProbablePrime_of_none_passes (by decide) rfl (by decide) hr e⟩

end Sys2Proof.Machine
end

section
/-! SUPPORT. The prime search candidate by candidate and GENERATE's loop pass by pass (43_primetest.md R113,
44_rsa_engine.md R120, 70_reset_and_hazards.md R158). -/

namespace Sys2Proof.Machine

open Sys2Proof

/-! ## Candidates -/

theorem drawCandidate_eq (k : Nat) (e : Entropy) :
    drawCandidate k e = ((drawBits k e).1 ||| 2 ^ (k - 1), (drawBits k e).2) := rfl

/-- Below its top bit a candidate is drawn (43_primetest.md R113). -/
theorem drawCandidate_mod (k : Nat) (e : Entropy) :
    (drawCandidate k e).1 % 2 ^ (k - 1) = (drawBits k e).1 % 2 ^ (k - 1) := by
  rw [drawCandidate_eq, Nat.or_mod_two_pow, Nat.mod_self, Nat.or_zero]

/-- A candidate of at least 2 bits is at least 2. -/
theorem two_le_drawCandidate {k : Nat} (hk : 2 ≤ k) (e : Entropy) : 2 ≤ (drawCandidate k e).1 :=
  (Nat.le_self_pow (by omega) 2).trans (drawCandidate_bounds (by omega) e).1

theorem genPrime_of_accepted {rounds k left : Nat} {e e' : Entropy}
    (h : isProbablePrime rounds (drawCandidate k e).1 (drawCandidate k e).2 = (true, e')) :
    genPrime rounds k (left + 1) e = (some ((drawCandidate k e).1, left), e') := by
  rw [genPrime, h]
  rfl

theorem genPrime_of_rejected {rounds k left : Nat} {e e' : Entropy}
    (h : isProbablePrime rounds (drawCandidate k e).1 (drawCandidate k e).2 = (false, e')) :
    genPrime rounds k (left + 1) e = genPrime rounds k left e' := by
  rw [genPrime, h]
  rfl

/-- A search that answers has spent a candidate. -/
theorem genPrime_left_lt {rounds k : Nat} : ∀ {left : Nat} {e e' : Entropy} {p left' : Nat},
    genPrime rounds k left e = (some (p, left'), e') → left' < left := by
  intro left
  induction left with
  | zero => exact fun h => nomatch h
  | succ left ih =>
    intro e e' p left' h
    rcases hv : isProbablePrime rounds (drawCandidate k e).1 (drawCandidate k e).2 with ⟨_ | _, e1⟩
    · rw [genPrime_of_rejected hv] at h
      exact (ih h).trans (Nat.lt_succ_self left)
    · rw [genPrime_of_accepted hv] at h
      cases h
      exact Nat.lt_succ_self left

/-! ## Pairs -/

theorem keyOfPair_eq_none {p q : Nat} (h : p = q ∨ Nat.gcd 65537 ((p - 1) * (q - 1)) ≠ 1) : keyOfPair p q = none := by
  rw [keyOfPair]
  split_ifs with heq
  · rfl
  · rw [(modInv_eq_none_iff publicExponent _).mpr (h.resolve_left heq)]

/-- The key of a good pair (44_rsa_engine.md R120). -/
theorem keyOfPair_of_good {p q : Nat} (hp : 2 ≤ p) (hq : 2 ≤ q) (hne : p ≠ q)
    (hcop : Nat.gcd 65537 ((p - 1) * (q - 1)) = 1) :
    ∃ d, d < (p - 1) * (q - 1) ∧ 65537 * d % ((p - 1) * (q - 1)) = 1 % ((p - 1) * (q - 1)) ∧
      keyOfPair p q = some (p * q, 65537, d) := by
  have hphi : (p - 1) * (q - 1) ≠ 0 := Nat.mul_ne_zero (by omega) (by omega)
  obtain ⟨d, hd, hlt, hinv, -⟩ := modInv_of_coprime hphi hcop
  refine ⟨d, hlt, hinv, ?_⟩
  rw [keyOfPair, if_neg hne, publicExponent, hd]

/-! ## Passes of GENERATE's loop -/

/-- A pass whose two searches answer ends with the pair's key, or the loop goes on with what they left. -/
theorem keySearch_pass {rounds k bound left left1 left2 p q : Nat} {e e1 e2 : Entropy}
    (hp : genPrime rounds k left e = (some (p, left1), e1)) (hq : genPrime rounds k left1 e1 = (some (q, left2), e2)) :
    keySearch rounds k (bound + 1) left e =
      (keyOfPair p q).elim (keySearch rounds k bound left2 e2) fun key => (some key, e2) := by
  simp only [keySearch, hp, hq]
  cases keyOfPair p q <;> rfl

theorem keySearch_of_first_none {rounds k bound left : Nat} {e e1 : Entropy}
    (hp : genPrime rounds k left e = (none, e1)) : keySearch rounds k (bound + 1) left e = (none, e1) := by
  simp only [keySearch, hp]

theorem keySearch_of_second_none {rounds k bound left left1 p : Nat} {e e1 e2 : Entropy}
    (hp : genPrime rounds k left e = (some (p, left1), e1)) (hq : genPrime rounds k left1 e1 = (none, e2)) :
    keySearch rounds k (bound + 1) left e = (none, e2) := by
  simp only [keySearch, hp, hq]

/-- Any two bounds above the candidates left give one answer: each pass spends two of them (log entry 6). -/
theorem keySearch_bound_irrelevant (rounds k : Nat) : ∀ (bound bound' left : Nat) (e : Entropy), left < bound →
    left < bound' → keySearch rounds k bound left e = keySearch rounds k bound' left e := by
  intro bound
  induction bound with
  | zero => exact fun _ _ _ h => absurd h (Nat.not_lt_zero _)
  | succ bound ih =>
    intro bound' left e hb hb'
    obtain ⟨bound', rfl⟩ := Nat.exists_eq_add_of_lt (Nat.zero_lt_of_lt hb')
    rw [Nat.zero_add] at hb' ⊢
    rcases hp : genPrime rounds k left e with ⟨_ | ⟨p, left1⟩, e1⟩
    · rw [keySearch_of_first_none hp, keySearch_of_first_none hp]
    rcases hq : genPrime rounds k left1 e1 with ⟨_ | ⟨q, left2⟩, e2⟩
    · rw [keySearch_of_second_none hp hq, keySearch_of_second_none hp hq]
    have h1 := genPrime_left_lt hp
    have h2 := genPrime_left_lt hq
    rw [keySearch_pass hp hq, keySearch_pass hp hq, ih bound' left2 e2 (by omega) (by omega)]

/-! ## A source that draws zeros (70_reset_and_hazards.md R158) -/

theorem drawLimbs_zeros (rest : List Word) (j : Nat) : ∀ n,
    drawLimbs j ⟨List.replicate j 0 ++ rest, n⟩ = (0, ⟨rest, n + j⟩) := by
  induction j with
  | zero => exact fun n => rfl
  | succ j ih =>
    intro n
    rw [drawLimbs, List.replicate_succ, List.cons_append, Entropy.draw_cons, ih]
    simp [Nat.add_assoc, Nat.add_comm 1]

/-- The candidate of zero draws is its top bit. -/
theorem drawCandidate_zeros (k n : Nat) (rest : List Word) :
    drawCandidate k ⟨List.replicate ((k + 31) / 32) 0 ++ rest, n⟩ = (2 ^ (k - 1), ⟨rest, n + (k + 31) / 32⟩) := by
  rw [drawCandidate_eq, drawBits, drawLimbs_zeros, Nat.zero_mod, Nat.zero_or]

/-- A power of two from 4 is rejected without a draw. -/
theorem isProbablePrime_two_pow {k : Nat} (hk : 3 ≤ k) (rounds : Nat) (e : Entropy) :
    isProbablePrime rounds (2 ^ (k - 1)) e = (false, e) := by
  obtain ⟨j, rfl⟩ := Nat.exists_eq_add_of_le' hk
  have hpow : 2 ^ (j + 3 - 1) = 4 * 2 ^ j := by rw [show j + 3 - 1 = 2 + j by omega, Nat.pow_add]
  have hpos := Nat.two_pow_pos j
  exact isProbablePrime_of_even _ _ (by omega) (by omega)

theorem genPrime_zeros {k : Nat} (hk : 3 ≤ k) (rounds : Nat) (rest : List Word) (left : Nat) : ∀ n,
    genPrime rounds k left ⟨List.replicate (left * ((k + 31) / 32)) 0 ++ rest, n⟩ =
      (none, ⟨rest, n + left * ((k + 31) / 32)⟩) := by
  induction left with
  | zero => exact fun n => by rw [genPrime, Nat.zero_mul]; rfl
  | succ left ih =>
    intro n
    have hscript : List.replicate ((left + 1) * ((k + 31) / 32)) (0 : Word) ++ rest =
        List.replicate ((k + 31) / 32) 0 ++ (List.replicate (left * ((k + 31) / 32)) 0 ++ rest) := by
      rw [← List.append_assoc, List.replicate_append_replicate, Nat.succ_mul, Nat.add_comm]
    have hc := drawCandidate_zeros k n (List.replicate (left * ((k + 31) / 32)) 0 ++ rest)
    rw [hscript, genPrime_of_rejected (by rw [hc]; exact isProbablePrime_two_pow hk rounds _), ih]
    congr 2
    ring

/-! ## The checks of GENERATE (44_rsa_engine.md R120, 60_exceptions.md R133) -/

theorem exec_generate_eq (bits : BitVec 16) (s : State) :
    exec (.generate bits) s = finishCommand s (
      if s.engine = .keyGenerated then .raises .invalidState s.entropy
      else if bits.toNat = 0 ∨ bits.toNat % 2 = 1 then .raises .malformedSizeInput s.entropy
      else if bits.toNat / 2 < 2 ∨ bits.toNat > s.cfg.W then .raises .primeGenerationFailure s.entropy
      else generateKey (bits.toNat / 2) s) := rfl

theorem exec_generate_invalidState {s : State} (hs : s.engine = .keyGenerated) (bits : BitVec 16) :
    exec (.generate bits) s = .next (s.raiseError .invalidState) := by
  rw [exec_generate_eq, if_pos hs, finishCommand_raises_undrawn]

theorem exec_generate_malformedSize {s : State} {bits : BitVec 16} (hs : s.engine = .uninitialized)
    (hbits : bits.toNat = 0 ∨ bits.toNat % 2 = 1) :
    exec (.generate bits) s = .next (s.raiseError .malformedSizeInput) := by
  rw [exec_generate_eq, if_neg (by rw [hs]; decide), if_pos hbits, finishCommand_raises_undrawn]

theorem exec_generate_sizeOutOfRange {s : State} {bits : BitVec 16} (hs : s.engine = .uninitialized)
    (heven : bits.toNat % 2 = 0) (hbits : bits.toNat = 2 ∨ (bits.toNat ≠ 0 ∧ s.cfg.W < bits.toNat)) :
    exec (.generate bits) s = .next (s.raiseError .primeGenerationFailure) := by
  rw [exec_generate_eq, if_neg (by rw [hs]; decide), if_neg (by omega), if_pos (by omega), finishCommand_raises_undrawn]

/-- A key size GENERATE searches for, in a state without a key. -/
def LegalSize (s : State) (bits : BitVec 16) : Prop :=
  s.engine = .uninitialized ∧ bits.toNat % 2 = 0 ∧ 4 ≤ bits.toNat ∧ bits.toNat ≤ s.cfg.W

theorem legalSize_bounds {s : State} {bits : BitVec 16} (h : LegalSize s bits) :
    2 ≤ bits.toNat / 2 ∧ 2 * (bits.toNat / 2) ≤ s.cfg.W := by
  obtain ⟨-, -, h4, hW⟩ := h
  omega

theorem exec_generate_of_not_legal {s : State} {bits : BitVec 16} (h : ¬LegalSize s bits) :
    ∃ k : ErrorKind, (k.code = 1 ∨ k.code = 6 ∨ k.code = 8) ∧ exec (.generate bits) s = .next (s.raiseError k) := by
  cases hs : s.engine with
  | keyGenerated => exact ⟨.invalidState, by decide, exec_generate_invalidState hs bits⟩
  | uninitialized =>
    by_cases hbits : bits.toNat = 0 ∨ bits.toNat % 2 = 1
    · exact ⟨.malformedSizeInput, by decide, exec_generate_malformedSize hs hbits⟩
    · refine ⟨.primeGenerationFailure, by decide, exec_generate_sizeOutOfRange hs (by omega) ?_⟩
      by_contra hrange
      exact h ⟨hs, by omega, by omega, by omega⟩

/-! ## The search of GENERATE -/

/-- The search of GENERATE with all `TRY_LIMIT` candidates. -/
def generateSearch (s : State) (bits : BitVec 16) : Option (Nat × Nat × Nat) × Entropy :=
  keySearch s.cfg.mrRounds (bits.toNat / 2) (s.cfg.tryLimit + 1) s.cfg.tryLimit s.entropy

theorem exec_generate_found {s : State} {bits : BitVec 16} {n e d : Nat} {ent : Entropy} (h : LegalSize s bits)
    (hfound : generateSearch s bits = (some (n, e, d), ent)) :
    exec (.generate bits) s = .next (s.setKey n e d ent).succeed := by
  obtain ⟨hs, heven, h4, hW⟩ := h
  exact (execGenerate_search hs heven h4 hW).trans (by rw [generateKey_some hfound]; rfl)

theorem exec_generate_exhausted {s : State} {bits : BitVec 16} {ent : Entropy} (h : LegalSize s bits)
    (hnone : generateSearch s bits = (none, ent)) :
    exec (.generate bits) s = .next ((s.setEntropy ent).raiseError .primeGenerationFailure) := by
  obtain ⟨hs, heven, h4, hW⟩ := h
  exact (execGenerate_search hs heven h4 hW).trans (by rw [generateKey_none hnone]; rfl)

/-- A key of two numbers of two bits: 2 and 3 are the only ones (44_rsa_engine.md R120, corner cases). -/
theorem State.KeyFrom.of_two_bits {s : State} {p q : Nat} (h : s.KeyFrom p q 2) :
    s.keyN = 6 ∧ s.keyE = 65537 ∧ s.keyD = 1 := by
  obtain ⟨hne, -, ⟨hp, hp'⟩, ⟨hq, hq'⟩, -, -, hN, hE, hD, hinv, -⟩ := h
  have hpair : (p = 2 ∧ q = 3) ∨ (p = 3 ∧ q = 2) := by omega
  rw [hE] at hinv
  obtain ⟨rfl, rfl⟩ | ⟨rfl, rfl⟩ := hpair
  all_goals exact ⟨hN, hE, by omega⟩

end Sys2Proof.Machine
end

section
/-! PROOFS. The statements about the prime search and GENERATE (43_primetest.md R113, 44_rsa_engine.md R120,
70_reset_and_hazards.md R158). -/

namespace Sys2Proof.Machine

open Sys2Proof

/-- Settles O23: the candidate drawn next decides the search's next pass. -/
theorem primeSearchTriesCandidates : Obligations.PrimeSearchTriesCandidates := by
  unfold Obligations.PrimeSearchTriesCandidates
  intro rounds k e hk
  obtain ⟨hlow, hhigh⟩ := drawCandidate_bounds (k := k) (by omega) e
  exact ⟨rfl, _, hlow, hhigh, drawCandidate_mod k e, fun left e' => ⟨genPrime_of_accepted, genPrime_of_rejected⟩⟩

/-- Settles O24: each check that fails ends the command before the next one. -/
theorem generateChecksInOrder : Obligations.GenerateChecksInOrder := by
  unfold Obligations.GenerateChecksInOrder
  exact fun s bits => ⟨fun hs => exec_generate_invalidState hs bits, exec_generate_malformedSize,
    exec_generate_sizeOutOfRange⟩

/-- Settles O25: both searches of the first pass answer at once, and the pair has a key. -/
theorem generateTakesTheFirstGoodPair : Obligations.GenerateTakesTheFirstGoodPair := by
  unfold Obligations.GenerateTakesTheFirstGoodPair
  intro s bits p q e1 e2 e3 e4 hs heven h4 hW htry hp hpv hq hqv hne hcop
  have hk : 2 ≤ bits.toNat / 2 := by omega
  have hp2 := two_le_drawCandidate hk s.entropy
  have hq2 := two_le_drawCandidate hk e2
  rw [hp] at hp2
  rw [hq] at hq2
  obtain ⟨d, hd, hinv, hkey⟩ := keyOfPair_of_good hp2 hq2 hne hcop
  refine ⟨d, hd, hinv, ?_⟩
  obtain ⟨left, hleft⟩ := Nat.exists_eq_add_of_le' htry
  have hfirst : genPrime s.cfg.mrRounds (bits.toNat / 2) (left + 2) s.entropy = (some (p, left + 1), e2) := by
    rw [genPrime_of_accepted (by rw [hp]; exact hpv), hp]
  have hsecond : genPrime s.cfg.mrRounds (bits.toNat / 2) (left + 1) e2 = (some (q, left), e4) := by
    rw [genPrime_of_accepted (by rw [hq]; exact hqv), hq]
  have hfound : generateSearch s bits = (some (p * q, 65537, d), e4) := by
    rw [generateSearch, hleft, keySearch_pass hfirst hsecond, hkey]
    rfl
  exact exec_generate_found ⟨hs, heven, h4, hW⟩ hfound

/-- Settles O26: a bad pair has no key, and the candidates left after it are fewer than the bound that is left. -/
theorem searchRedrawsABadPair : Obligations.SearchRedrawsABadPair := by
  unfold Obligations.SearchRedrawsABadPair
  intro rounds k left left1 left2 p q e e1 e2 _ hp hq hbad
  have h1 := genPrime_left_lt hp
  have h2 := genPrime_left_lt hq
  rw [keySearch_pass hp hq, keyOfPair_eq_none hbad]
  exact keySearch_bound_irrelevant rounds k left (left2 + 1) left2 e2 (by omega) (by omega)

/-- Settles O27: one more than the candidates left is such a bound. -/
theorem searchBoundIsNeverReached : Obligations.SearchBoundIsNeverReached := by
  unfold Obligations.SearchBoundIsNeverReached
  exact fun rounds k bound left e hb => keySearch_bound_irrelevant rounds k bound (left + 1) left e hb (Nat.lt_succ_self left)

/-- Settles O28: a check ends the command, or the search does with what it found. -/
theorem generateMakesAKeyOrFails : Obligations.GenerateMakesAKeyOrFails := by
  unfold Obligations.GenerateMakesAKeyOrFails
  intro s bits
  by_cases hlegal : LegalSize s bits
  · rcases hsearch : generateSearch s bits with ⟨_ | ⟨n, e, d⟩, ent⟩
    · refine ⟨_, exec_generate_exhausted hlegal hsearch, .inr (.inl ⟨hlegal, congrArg Prod.fst hsearch, ?_⟩)⟩
      change _ = { s with entropy := (generateSearch s bits).2, err := 1, errlog := s.errlog ||| 0x2 }
      rw [hsearch]
      rfl
    · refine ⟨_, exec_generate_found hlegal hsearch, .inr (.inr ⟨hlegal, ?_⟩)⟩
      obtain ⟨p, q, hkey⟩ := State.setKey_keyFrom (s := s) (k := bits.toNat / 2) (legalSize_bounds hlegal) hsearch
      obtain ⟨hlow, hhigh⟩ := hkey.keyN_bounds
      obtain ⟨-, heven, -⟩ := hlegal
      have hbits : 2 * (bits.toNat / 2) = bits.toNat := by omega
      rw [hbits] at hlow hhigh
      have hE : e = 65537 := hkey.keyE_eq
      subst hE
      refine ⟨congrArg Prod.fst hsearch, ⟨p, q, hkey⟩, hlow, hhigh, ?_⟩
      change _ = { s with
        keyN := n, keyE := 65537, keyD := d, engine := .keyGenerated, entropy := (generateSearch s bits).2, err := 0 }
      rw [hsearch]
      rfl
  · obtain ⟨k, hcode, hexec⟩ := exec_generate_of_not_legal hlegal
    exact ⟨_, hexec, .inl ⟨hlegal, k.code, hcode, rfl⟩⟩

/-- Settles O29: 2 and 3 are the numbers of two bits, and 1 is the only inverse below 2. -/
theorem fourBitKeyIsSix : Obligations.FourBitKeyIsSix := by
  unfold Obligations.FourBitKeyIsSix
  intro s t hs hexec ht
  obtain ⟨k, ent, -, rfl⟩ | ⟨n, e, d, ent, -, hk, hsearch, rfl⟩ := exec_generate_cases hexec
  · cases hs.symm.trans ht
  · obtain ⟨p, q, hkey⟩ := State.setKey_keyFrom hk hsearch
    exact hkey.of_two_bits

/-- Settles O30: every candidate is a power of two, so the first search spends them all. -/
theorem zeroDrawsExhaustTheSearch : Obligations.ZeroDrawsExhaustTheSearch := by
  unfold Obligations.ZeroDrawsExhaustTheSearch
  intro s bits rest hs heven h6 hW hscript
  have hport : s.entropy =
      ⟨List.replicate (s.cfg.tryLimit * ((bits.toNat / 2 + 31) / 32)) 0 ++ rest, s.entropy.taken⟩ := by
    rw [← hscript]
  have hnone := genPrime_zeros (k := bits.toNat / 2) (by omega) s.cfg.mrRounds rest s.cfg.tryLimit s.entropy.taken
  rw [← hport] at hnone
  exact exec_generate_exhausted ⟨hs, heven, by omega, hW⟩ (keySearch_of_first_none hnone)

end Sys2Proof.Machine
end
